-- ==== Sys2Proof/Config.lean ====
section
/-! DEFINITION. The block's fixed constants (00_scope.md R8) and the limits of its two configuration parameters (R7).
`RAM_SIZE` and `VIDEO_SIZE` themselves are operands of CONFIG (43_bus.md R141) and stand in the state. The spec leaves no
value of an operation open, so there is no uninterpreted constant here. -/

namespace Sys2Proof.Config

/-- `WORD_BITS`, the width of a word (R8, R10). -/
@[simp] abbrev wordBits : Nat := 32
/-- `ADDR_BITS`, the width of an address (R8, R50). -/
@[simp] abbrev addrBits : Nat := 32
/-- `REG_BASE`, first address of the Register kind (R8, R51). -/
@[simp] abbrev regBase : Nat := 0x00
/-- `REG_LAST`, last address of the Register kind (R8, R51). -/
@[simp] abbrev regLast : Nat := 0x1D
/-- `REG_LEN`, the register file's length in words, its two padding words counted (R8, R21). -/
@[simp] abbrev regLen : Nat := 32
/-- `OPCODE_BASE`, first address of the Opcode kind (R8, R51). -/
@[simp] abbrev opcodeBase : Nat := 0x20
/-- `OPCODE_LAST`, last address of the Opcode kind (R8, R51). -/
@[simp] abbrev opcodeLast : Nat := 0x54
/-- `IO_BASE`, first address of the I/O kind (R8, R51). -/
@[simp] abbrev ioBase : Nat := 0x70
/-- `IO_LAST`, last address of the I/O kind (R8, R51). -/
@[simp] abbrev ioLast : Nat := 0xFF
/-- `IO_LEN`, the number of I/O ports (R8, R23). -/
@[simp] abbrev ioLen : Nat := 144
/-- `VIDEO_BASE`, first address of the Video kind (R8, R51). -/
@[simp] abbrev videoBase : Nat := 0x100
/-- `VIDEO_MAX_END`, last address of the Video kind and cap of `video_end` (R8, R51, R141). -/
@[simp] abbrev videoMaxEnd : Nat := 0x001000FF
/-- `MEM_BASE`, first address of the Main kind (R8, R51). -/
@[simp] abbrev memBase : Nat := 0x00100100
/-- The largest legal `RAM_SIZE` (R7, R141; the spec's decision D9). -/
@[simp] abbrev ramSizeMax : Nat := 0xFFEFFF00
/-- The largest legal `VIDEO_SIZE` (R7). -/
@[simp] abbrev videoSizeMax : Nat := 0x00100000
/-- `SPECIAL_FIRST`, the first special register (R8, R27). -/
@[simp] abbrev specialFirst : Nat := 0x10
/-- `SPECIAL_LAST`, the last special register (R8, R27). -/
@[simp] abbrev specialLast : Nat := 0x1D

end Sys2Proof.Config
end

