-- ==== Sys2Proof/Word.lean ====
section
/-! DEFINITION. The bus's word and the image port's byte (00_scope.md R10, R12). -/

namespace Sys2Proof

/-- A word: a 32-bit unsigned value, bit 31 the most significant (R10). Addresses are words too (R50). -/
abbrev Word := BitVec 32

/-- A word has `WORD_BITS` bits (R8). -/
theorem word_eq_wordBits : Word = BitVec Config.wordBits := rfl

/-- An address has `ADDR_BITS` bits (R8, R50). -/
theorem word_eq_addrBits : Word = BitVec Config.addrBits := rfl

/-- One byte of an image stream (R12). -/
abbrev Byte := BitVec 8

end Sys2Proof
end

