-- ==== Sys2Proof/Syntax.lean ====
section
/-! DEFINITION. The requests of the block: one constructor of `Instr` per row of opcode_table.json, the host's side operands
of the image port, and the request as it is issued (30_encoding.md R80 to R85). An operand has exactly the width of its field,
so no term of `Instr` has an operand that does not fit. -/

namespace Sys2Proof

/-- IMGLOAD's side operand `src`: the stream, or the host's report that it could not supply one (R80, R164). -/
inductive ImageSource where
  | bytes (s : List Byte)
  | notFound
  | ioFail
deriving DecidableEq, Repr

/-- IMGSAVE's side operand `dst`: the host's report of whether it stored the output stream (R80, R164). -/
inductive SaveReport where
  | stored
  | ioFail
deriving DecidableEq, Repr

/-- One request as the owner issues it: the 72-bit word `cmd ++ a ++ d` of R80 and the host's draws. `src` is read by
IMGLOAD only and `dst` by IMGSAVE only; for every other request they are ignored (DESIGN CHOICE, safe: log 7). -/
structure Request where
  word : BitVec 72
  src  : ImageSource
  dst  : SaveReport
deriving DecidableEq, Repr

/-- The closed set of devices, in the order of their select codes (R84; 00_scope.md R9). -/
inductive Device where
  | reg
  | mem
  | io
  | vid
deriving DecidableEq, Repr

/-- The 14 special registers, in the source's listed order (10_state.md R27; the order is the spec's decision D6). -/
inductive SpecialReg where
  | pc | mode | sp | timer | int0 | int1 | snd0 | snd1 | snd2 | snd3 | cmp | exit | btsrc | btlen
deriving DecidableEq, Repr

/-- The nineteen operations (30_encoding.md R83). A field the table calls ignored is no operand. -/
inductive Instr where
  | classify (a : Word)
  | read (a : Word)
  | write (a v : Word)
  | devrdReg (off : Word)
  | devrdMem (off : Word)
  | devrdIo (off : Word)
  | devrdVid (off : Word)
  | devwrReg (off v : Word)
  | devwrMem (off v : Word)
  | devwrIo (off v : Word)
  | devwrVid (off v : Word)
  | devlenReg
  | devlenMem
  | devlenIo
  | devlenVid
  | vidend
  | config (ram vid : Word)
  | imgsave (dst : SaveReport)
  | imgload (src : ImageSource)
deriving DecidableEq, Repr

end Sys2Proof
end

