-- ==== Sys2Proof/WellFormed.lean ====
section
/-! DEFINITION. Well-formed command bytes (30_encoding.md R82, R83, R88). The operands of `Instr` fit their fields by their
types and every combination of them is a request of the block (R85, R90), so the command byte is the one part of a request
that can be ill-formed. -/

namespace Sys2Proof

/-- `cmd[7:4]` is an assigned operation: 0x1 to 0xA (R83, R88). -/
def opAssigned (op : BitVec 4) : Bool := decide (1 ≤ op.toNat ∧ op.toNat ≤ 0xA)

/-- The operations that use the device select: DEVRD, DEVWR and DEVLEN (R82). -/
def opUsesDevice (op : BitVec 4) : Bool := op == 0x4#4 || op == 0x5#4 || op == 0x6#4

/-- A command byte, split as `cmd[7:4]`, `cmd[3:2]` and `cmd[1:0]`, is well-formed when its operation is assigned,
`cmd[3:2]` is 00, and `cmd[1:0]` is 00 unless the operation uses the device select (R82, R88). -/
def commandFieldsWellFormed (op : BitVec 4) (mid dev : BitVec 2) : Bool :=
  opAssigned op && mid == 0#2 && (opUsesDevice op || dev == 0#2)

end Sys2Proof
end

