-- ==== Sys2Proof/Decode.lean ====
section
/-! DEFINITION. The decoder and the encoder of requests (30_encoding.md R80 to R85, R88, R90), total on any bytes, and the
host's entry `decodeTableWord`. -/

namespace Sys2Proof

/-! ## The fields of a request -/

/-- The command byte, bits 71:64 (R80). -/
def requestCmd (w : BitVec 72) : Byte := w.extractLsb' 64 8

/-- The field `a`, bits 63:32 (R80). -/
def requestA (w : BitVec 72) : Word := w.extractLsb' 32 32

/-- The field `d`, bits 31:0 (R80). -/
def requestD (w : BitVec 72) : Word := w.extractLsb' 0 32

/-- The operation `op`, `cmd[7:4]` (R82). -/
def cmdOp (cmd : Byte) : BitVec 4 := cmd.extractLsb' 4 4

/-- `cmd[3:2]`, which must be 00 (R82). -/
def cmdMid (cmd : Byte) : BitVec 2 := cmd.extractLsb' 2 2

/-- The device select `dev`, `cmd[1:0]` (R82, R84). -/
def cmdDev (cmd : Byte) : BitVec 2 := cmd.extractLsb' 0 2

/-- The command byte passes the checks of R82 and R88. -/
def commandWellFormed (cmd : Byte) : Bool := commandFieldsWellFormed (cmdOp cmd) (cmdMid cmd) (cmdDev cmd)

/-! ## The decoder -/

/-- Why bytes are no request: three ways to be a reserved command byte (R88), and a length other than a request's (R80, R90). -/
inductive DecodeError where
  | unassignedOp
  | reservedBits
  | deviceSelect
  | notARequest
deriving DecidableEq, Repr

/-- The reason a command byte outside R83's table is reserved (R88). -/
def reservedReason (cmd : Byte) : DecodeError :=
  if opAssigned (cmdOp cmd) = false then .unassignedOp
  else if cmdMid cmd ≠ 0#2 then .reservedBits
  else .deviceSelect

/-- R83's table: the operation of a command byte with the fields `a` and `d` and the host's draws as its operands
(R85: an address, an offset, a data word or a size is its field, unchanged). -/
def decodeCommand (cmd : Byte) (a d : Word) (src : ImageSource) (dst : SaveReport) : Except DecodeError Instr :=
  match cmd.toNat with
  | 0x10 => .ok (.classify a)
  | 0x20 => .ok (.read a)
  | 0x30 => .ok (.write a d)
  | 0x40 => .ok (.devrdReg a)
  | 0x41 => .ok (.devrdMem a)
  | 0x42 => .ok (.devrdIo a)
  | 0x43 => .ok (.devrdVid a)
  | 0x50 => .ok (.devwrReg a d)
  | 0x51 => .ok (.devwrMem a d)
  | 0x52 => .ok (.devwrIo a d)
  | 0x53 => .ok (.devwrVid a d)
  | 0x60 => .ok .devlenReg
  | 0x61 => .ok .devlenMem
  | 0x62 => .ok .devlenIo
  | 0x63 => .ok .devlenVid
  | 0x70 => .ok .vidend
  | 0x80 => .ok (.config a d)
  | 0x90 => .ok (.imgsave dst)
  | 0xA0 => .ok (.imgload src)
  | _ => .error (reservedReason cmd)

/-- Decode a request. -/
def decode (r : Request) : Except DecodeError Instr :=
  decodeCommand (requestCmd r.word) (requestA r.word) (requestD r.word) r.src r.dst

/-! ## Requests as bytes -/

/-- The 72-bit word of nine bytes, the command byte first (DESIGN CHOICE, safe: log 5); no other number of bytes is a
request (R80, R90). -/
def wordOfBytes : List Byte → Option (BitVec 72)
  | [c, a3, a2, a1, a0, d3, d2, d1, d0] =>
    some (c ++ (a3 ++ a2 ++ a1 ++ a0 : BitVec 32) ++ (d3 ++ d2 ++ d1 ++ d0 : BitVec 32))
  | _ => none

/-- Decode any bytes, with the host's draws beside them. -/
def decodeBytes (bs : List Byte) (src : ImageSource) (dst : SaveReport) : Except DecodeError Instr :=
  match wordOfBytes bs with
  | some w => decode { word := w, src := src, dst := dst }
  | none => .error .notARequest

/-! ## The encoder -/

/-- The command byte of R83's table. -/
def encodeCmd : Instr → Byte
  | .classify _ => 0x10#8
  | .read _ => 0x20#8
  | .write _ _ => 0x30#8
  | .devrdReg _ => 0x40#8
  | .devrdMem _ => 0x41#8
  | .devrdIo _ => 0x42#8
  | .devrdVid _ => 0x43#8
  | .devwrReg _ _ => 0x50#8
  | .devwrMem _ _ => 0x51#8
  | .devwrIo _ _ => 0x52#8
  | .devwrVid _ _ => 0x53#8
  | .devlenReg => 0x60#8
  | .devlenMem => 0x61#8
  | .devlenIo => 0x62#8
  | .devlenVid => 0x63#8
  | .vidend => 0x70#8
  | .config _ _ => 0x80#8
  | .imgsave _ => 0x90#8
  | .imgload _ => 0xA0#8

/-- The field `a`; an ignored field is written as 0 (DESIGN CHOICE, safe: log 8). -/
def encodeA : Instr → Word
  | .classify a => a
  | .read a => a
  | .write a _ => a
  | .devrdReg off => off
  | .devrdMem off => off
  | .devrdIo off => off
  | .devrdVid off => off
  | .devwrReg off _ => off
  | .devwrMem off _ => off
  | .devwrIo off _ => off
  | .devwrVid off _ => off
  | .devlenReg => 0#32
  | .devlenMem => 0#32
  | .devlenIo => 0#32
  | .devlenVid => 0#32
  | .vidend => 0#32
  | .config ram _ => ram
  | .imgsave _ => 0#32
  | .imgload _ => 0#32

/-- The field `d`; an ignored field is written as 0 (DESIGN CHOICE, safe: log 8). -/
def encodeD : Instr → Word
  | .classify _ => 0#32
  | .read _ => 0#32
  | .write _ v => v
  | .devrdReg _ => 0#32
  | .devrdMem _ => 0#32
  | .devrdIo _ => 0#32
  | .devrdVid _ => 0#32
  | .devwrReg _ v => v
  | .devwrMem _ v => v
  | .devwrIo _ v => v
  | .devwrVid _ v => v
  | .devlenReg => 0#32
  | .devlenMem => 0#32
  | .devlenIo => 0#32
  | .devlenVid => 0#32
  | .vidend => 0#32
  | .config _ vid => vid
  | .imgsave _ => 0#32
  | .imgload _ => 0#32

/-- IMGLOAD's side operand; any other request carries the empty stream, which nothing reads (DESIGN CHOICE, safe: log 7). -/
def encodeSrc : Instr → ImageSource
  | .imgload src => src
  | _ => .bytes []

/-- IMGSAVE's side operand; any other request carries `stored`, which nothing reads (DESIGN CHOICE, safe: log 7). -/
def encodeDst : Instr → SaveReport
  | .imgsave dst => dst
  | _ => .stored

/-- The request of an instruction: `cmd ++ a ++ d` with the side operands (R80, R82, R83). -/
def encode (i : Instr) : Request :=
  { word := encodeCmd i ++ encodeA i ++ encodeD i, src := encodeSrc i, dst := encodeDst i }

/-- The nine bytes of an instruction's request, the command byte first (DESIGN CHOICE, safe: log 5). -/
def encodeBytes (i : Instr) : List Byte :=
  [encodeCmd i,
   (encodeA i).extractLsb' 24 8, (encodeA i).extractLsb' 16 8, (encodeA i).extractLsb' 8 8, (encodeA i).extractLsb' 0 8,
   (encodeD i).extractLsb' 24 8, (encodeD i).extractLsb' 16 8, (encodeD i).extractLsb' 8 8, (encodeD i).extractLsb' 0 8]

/-! ## The opcode table's words -/

/-- The nine bytes of a table word: the table numbers the command byte 7:0, so byte `k` is bits `8k+7:8k`, and every bit
from `nbits` up is 0 (log 5). -/
def tableBytes (nbits w : Nat) : List Byte :=
  (List.range 9).map fun k => BitVec.ofNat 8 ((w % 2 ^ nbits) / 2 ^ (8 * k))

/-- The request a table word stands for; its side operands are the empty stream and `stored` (log 5). -/
def tableRequest (nbits w : Nat) : Request :=
  { word := (wordOfBytes (tableBytes nbits w)).getD 0#72, src := .bytes [], dst := .stored }

/-- The instruction the decoder reads from an instruction whose bits are `w`, numbered as opcode_table.json numbers them. -/
def decodeTableWord (nbits w : Nat) : Option Instr :=
  (decodeBytes (tableBytes nbits w) (.bytes []) .stored).toOption

end Sys2Proof
end

