-- ==== Sys2Proof/Machine/State.lean ====
section
/-! DEFINITION. The state of the block and of its request and response ports, as plain data (10_state.md R20 to R36;
30_encoding.md R80, R81), the canonical form of its sparse memories, and the machine at power-on. -/

namespace Sys2Proof.Machine

/-! ## Sparse word memory -/

/-- One word at a device index. The space is word-addressed and an address never names a byte (20_memory.md R50, R64), so
a cell holds a word (DEDUCED, safe: log 6). -/
abbrev Cell := Nat × Word

/-- The words of a memory that differ from `unwritten`, by rising index. -/
abbrev Memory := List Cell

/-- What an index with no cell reads as: every word is zero from CONFIG on (10_state.md R35). -/
abbrev unwritten : Word := 0#32

/-- The canonical form: indices strictly rising, and no cell holding what an unlisted index reads as. -/
abbrev Memory.wf (m : Memory) : Prop := m.Pairwise (fun c c' => c.1 < c'.1) ∧ ∀ c ∈ m, c.2 ≠ unwritten

/-! ## The block -/

/-- The configuration record `cfg` (10_state.md R25). -/
structure Cfg where
  ramSize   : Word
  videoSize : Word
  videoEnd  : Word
deriving DecidableEq, Repr

/-- A configured block: the four devices' storage and `cfg` (10_state.md R20 to R25). -/
structure Bus where
  reg : Vector Word 32
  mem : Memory
  io  : Vector Word 144
  vid : Memory
  cfg : Cfg
deriving DecidableEq, Repr

/-- The block: without any storage before its first successful CONFIG, and configured after it (10_state.md R20;
70_reset_and_hazards.md R200). -/
inductive Block where
  | unconfigured
  | configured (b : Bus)
deriving DecidableEq, Repr

/-! ## The response port -/

/-- The status of a response (60_exceptions.md R181). -/
inductive Status where
  | ok
  | memBounds
  | memOpcode
  | memReserved
  | notConfigured
  | invalidCommand
  | configVideo
  | configRam
  | imageLength
  | ioError
  | resourceNotFound
deriving DecidableEq, Repr

/-- The source's four error kinds (60_exceptions.md R181). -/
inductive ErrorKind where
  | memoryError
  | invalidInput
  | ioError
  | resourceNotFound
deriving DecidableEq, Repr

/-- The response to one request (30_encoding.md R81). -/
structure Response where
  status : Status
  r0     : Word
  r1     : Word
  eAddr  : Option Word
  eOff   : Option Word
  eLen   : Option Word
  eIdx   : Option Word
  out    : Option (List Byte)
deriving DecidableEq, Repr

/-! ## The machine -/

/-- The machine: the block, the requests the owner has issued and the block has not yet taken, in issue order
(20_memory.md R67, R73; log 1), and the response to the last request, if there has been one (30_encoding.md R81; log 3). -/
structure State where
  block    : Block
  requests : List Request
  response : Option Response
deriving DecidableEq, Repr

/-- Power-on: unconfigured (70_reset_and_hazards.md R200; log 10), with no request issued and no response given (log 1, log 3). -/
def State.reset : State := { block := .unconfigured, requests := [], response := none }

/-- Reasons to stop with a fault. There is none: every error of the block is a response and no item of it is stuck
(60_exceptions.md R180; 70_reset_and_hazards.md R209), so nothing raises a fault. Safe. -/
inductive Fault where
deriving DecidableEq, Repr

/-- Reasons to refuse. -/
inductive Refusal where
  /-- Raised by an arm of `exec` whose instruction has no meaning yet. Safe: the machine stops. No arm raises it now. -/
  | notModelled (mnemonic : String)
deriving DecidableEq, Repr

end Sys2Proof.Machine
end

