-- ==== Sys2Proof/Machine/Operands.lean ====
section
/-! DEFINITION. Operand forms: the address decoder (20_memory.md R57), kind codes (30_encoding.md R86), special-register
offsets (10_state.md R27), the big-endian bytes of the image port (00_scope.md R12; 44_image.md R160), and values that may not
fit a 32-bit field (00_scope.md R10). -/

namespace Sys2Proof.Machine

/-! ## The address decoder -/

/-- The six kinds of address (20_memory.md R51), in the order of their codes (30_encoding.md R86). -/
inductive Kind where
  | register
  | opcode
  | io
  | video
  | main
  | reserved
deriving DecidableEq, Repr

/-- `Classify(a)`: the kind and the in-kind offset of an address, from the address alone (20_memory.md R57, R58). -/
def classify (a : Word) : Kind × Nat :=
  if a.toNat ≤ Config.regLast then (.register, a.toNat - Config.regBase)
  else if a.toNat ≤ 0x1F then (.reserved, 0)
  else if a.toNat ≤ Config.opcodeLast then (.opcode, 0)
  else if a.toNat ≤ 0x6F then (.reserved, 0)
  else if a.toNat ≤ Config.ioLast then (.io, a.toNat - Config.ioBase)
  else if a.toNat ≤ Config.videoMaxEnd then (.video, a.toNat - Config.videoBase)
  else (.main, a.toNat - Config.memBase)

/-- The kind code CLASSIFY returns (30_encoding.md R86). -/
def Kind.code : Kind → Word
  | .register => 0#32
  | .opcode => 1#32
  | .io => 2#32
  | .video => 3#32
  | .main => 4#32
  | .reserved => 5#32

/-- The device behind a kind, `D(kind)` (42_devices.md R123); none behind Opcode and Reserved (20_memory.md R61, R62). -/
def Kind.device : Kind → Option Device
  | .register => some .reg
  | .opcode => none
  | .io => some .io
  | .video => some .vid
  | .main => some .mem
  | .reserved => none

/-! ## Special registers -/

/-- The register-file offset of a special register (10_state.md R27; 30_encoding.md R92; log 19). -/
def specialOffset : SpecialReg → Word
  | .pc => 0x10#32
  | .mode => 0x11#32
  | .sp => 0x12#32
  | .timer => 0x13#32
  | .int0 => 0x14#32
  | .int1 => 0x15#32
  | .snd0 => 0x16#32
  | .snd1 => 0x17#32
  | .snd2 => 0x18#32
  | .snd3 => 0x19#32
  | .cmp => 0x1A#32
  | .exit => 0x1B#32
  | .btsrc => 0x1C#32
  | .btlen => 0x1D#32

/-- The pseudo-instruction `GETR <name>` (30_encoding.md R92). -/
def getr (r : SpecialReg) : Instr := .devrdReg (specialOffset r)

/-- The pseudo-instruction `SETR <name>, <value>` (30_encoding.md R92). -/
def setr (r : SpecialReg) (v : Word) : Instr := .devwrReg (specialOffset r) v

/-! ## Image bytes -/

/-- `BE32(w)`: the four bytes of a word, most significant first (00_scope.md R12; the byte order of the term is PRESUMED by
the spec from general knowledge: log 13). -/
def be32 (w : Word) : List Byte :=
  [w.extractLsb' 24 8, w.extractLsb' 16 8, w.extractLsb' 8 8, w.extractLsb' 0 8]

/-- `unBE32([b0, b1, b2, b3])` (00_scope.md R12). -/
def unBE32 (b0 b1 b2 b3 : Byte) : Word := b0 ++ b1 ++ b2 ++ b3

/-- The words of a stream, four bytes each (44_image.md R160). Bytes past the last whole word are left out; IMGLOAD has
refused such a stream before it reads a word (R163). -/
def imageWords : List Byte → List Word
  | b0 :: b1 :: b2 :: b3 :: rest => unBE32 b0 b1 b2 b3 :: imageWords rest
  | _ => []

/-! ## Values of a 32-bit field -/

/-- An exact value in a 32-bit information field, absent when it does not fit (00_scope.md R10; 60_exceptions.md R182;
log 11). -/
def fit32 (n : Nat) : Option Word := if n < 2 ^ 32 then some (BitVec.ofNat 32 n) else none

end Sys2Proof.Machine
end

