-- ==== Sys2Proof/Machine/Flags.lean ====
section
/-! DEFINITION. The block has no flags (10_state.md R29): no operation writes one. What an operation reports is the response:
its status code, the source's error kind, and exactly the information fields of 60_exceptions.md R182. -/

namespace Sys2Proof.Machine

/-- The 4-bit status code (60_exceptions.md R181). -/
def Status.code : Status → BitVec 4
  | .ok => 0#4
  | .memBounds => 1#4
  | .memOpcode => 2#4
  | .memReserved => 3#4
  | .notConfigured => 4#4
  | .invalidCommand => 5#4
  | .configVideo => 6#4
  | .configRam => 7#4
  | .imageLength => 8#4
  | .ioError => 9#4
  | .resourceNotFound => 10#4

/-- The source's kind of an error status; none for a success (60_exceptions.md R181). -/
def Status.kind : Status → Option ErrorKind
  | .ok => none
  | .memBounds => some .memoryError
  | .memOpcode => some .memoryError
  | .memReserved => some .memoryError
  | .notConfigured => some .invalidInput
  | .invalidCommand => some .invalidInput
  | .configVideo => some .invalidInput
  | .configRam => some .invalidInput
  | .imageLength => some .invalidInput
  | .ioError => some .ioError
  | .resourceNotFound => some .resourceNotFound

/-- A success response with two result words (30_encoding.md R81). -/
def okResponse (r0 r1 : Word) : Response :=
  { status := .ok, r0 := r0, r1 := r1, eAddr := none, eOff := none, eLen := none, eIdx := none, out := none }

/-- An error response with no information field (30_encoding.md R81). -/
def errorResponse (st : Status) : Response :=
  { status := st, r0 := 0#32, r1 := 0#32, eAddr := none, eOff := none, eLen := none, eIdx := none, out := none }

/-- `MEM_BOUNDS` as a device raises it: the offset and the device's length (20_memory.md R53, R54; 60_exceptions.md R182). -/
def boundsError (off len : Nat) : Response :=
  { errorResponse .memBounds with eOff := fit32 off, eLen := fit32 len }

/-- `MEM_OPCODE` at an address (60_exceptions.md R182). -/
def opcodeError (a : Word) : Response := { errorResponse .memOpcode with eAddr := some a }

/-- `MEM_RESERVED` at an address (60_exceptions.md R182). -/
def reservedError (a : Word) : Response := { errorResponse .memReserved with eAddr := some a }

/-- `CONFIG_VIDEO` with the requested `VIDEO_SIZE` (60_exceptions.md R182). -/
def configVideoError (vid : Word) : Response := { errorResponse .configVideo with eLen := some vid }

/-- `CONFIG_RAM` with the requested `RAM_SIZE` (60_exceptions.md R182). -/
def configRamError (ram : Word) : Response := { errorResponse .configRam with eLen := some ram }

/-- `IMAGE_LENGTH` with the stream's length in bytes, absent if it needs more than 32 bits (60_exceptions.md R182). -/
def imageLengthError (n : Nat) : Response := { errorResponse .imageLength with eLen := fit32 n }

end Sys2Proof.Machine
end

