-- ==== Sys2Proof/Machine/Ops.lean ====
section
/-! DEFINITION. The shared operations: the sparse memory, the device contract (20_memory.md R52 to R54), the bus
(43_bus.md R140 to R144), the image loops (44_image.md R162, R163), and how a request is taken and answered
(30_encoding.md R81; 60_exceptions.md R180). -/

namespace Sys2Proof.Machine

/-! ## Sparse word memory -/

/-- The word at an index. -/
def Memory.read : Memory → Nat → Word
  | [], _ => unwritten
  | (k, x) :: m, i => if k = i then x else Memory.read m i

/-- The cell of an index, or nothing where the word is what an unlisted index reads as. -/
def Memory.cell (i : Nat) (v : Word) : Memory := if v = unwritten then [] else [(i, v)]

/-- Write one word, keeping the canonical form. -/
def Memory.write : Memory → Nat → Word → Memory
  | [], i, v => Memory.cell i v
  | (k, x) :: m, i, v =>
    if i < k then Memory.cell i v ++ (k, x) :: m
    else if i = k then Memory.cell i v ++ m
    else (k, x) :: Memory.write m i v

/-! ## The device contract -/

/-- `len(d)`: a device's length in words (20_memory.md R52). -/
def Bus.len (b : Bus) : Device → Nat
  | .reg => Config.regLen
  | .mem => b.cfg.ramSize.toNat
  | .io => Config.ioLen
  | .vid => b.cfg.videoSize.toNat

/-- `d[i]`: word `i` of a device (00_scope.md R11). -/
def Bus.word (b : Bus) (d : Device) (i : Nat) : Word :=
  match d with
  | .reg => (b.reg[i]?).getD 0#32
  | .mem => b.mem.read i
  | .io => (b.io[i]?).getD 0#32
  | .vid => b.vid.read i

/-- `d[i] <- v`: exactly one word changes (00_scope.md R11; 20_memory.md R54). -/
def Bus.setWord (b : Bus) (d : Device) (i : Nat) (v : Word) : Bus :=
  match d with
  | .reg => { b with reg := b.reg.setIfInBounds i v }
  | .mem => { b with mem := b.mem.write i v }
  | .io => { b with io := b.io.setIfInBounds i v }
  | .vid => { b with vid := b.vid.write i v }

/-- `DevRead(d, off)` (20_memory.md R53). -/
def devRead (b : Bus) (d : Device) (off : Nat) : Except Response Word :=
  if b.len d ≤ off then .error (boundsError off (b.len d)) else .ok (b.word d off)

/-- `DevWrite(d, off, v)`: the check comes first (20_memory.md R54). -/
def devWrite (b : Bus) (d : Device) (off : Nat) (v : Word) : Except Response Bus :=
  if b.len d ≤ off then .error (boundsError off (b.len d)) else .ok (b.setWord d off v)

/-- A special register's word (10_state.md R27). -/
def Bus.special (b : Bus) (r : SpecialReg) : Word := b.word .reg (specialOffset r).toNat

/-! ## The bus -/

/-- A device's error as the bus returns it: with the absolute address added (43_bus.md R143, R144). -/
def withAddress {α : Type} (a : Word) : Except Response α → Except Response α
  | .error e => .error { e with eAddr := some a }
  | .ok x => .ok x

/-- A bus read of one word: READ's dispatch (43_bus.md R140, R143). -/
def busRead (b : Bus) (a : Word) : Except Response Word :=
  match classify a with
  | (.register, off) => withAddress a (devRead b .reg off)
  | (.io, off) => withAddress a (devRead b .io off)
  | (.video, off) => withAddress a (devRead b .vid off)
  | (.main, off) => withAddress a (devRead b .mem off)
  | (.opcode, _) => .error (opcodeError a)
  | (.reserved, _) => .error (reservedError a)

/-- A bus write of one word: WRITE's dispatch (43_bus.md R140, R144). -/
def busWrite (b : Bus) (a v : Word) : Except Response Bus :=
  match classify a with
  | (.register, off) => withAddress a (devWrite b .reg off v)
  | (.io, off) => withAddress a (devWrite b .io off v)
  | (.video, off) => withAddress a (devWrite b .vid off v)
  | (.main, off) => withAddress a (devWrite b .mem off v)
  | (.opcode, _) => .error (opcodeError a)
  | (.reserved, _) => .error (reservedError a)

/-- A block just configured: every word zero (43_bus.md R141; 70_reset_and_hazards.md R202). `video_end` is
`0x100 + vid - 1`, computed exactly; CONFIG has checked that it fits. -/
def Bus.fresh (ram vid : Word) : Bus :=
  { reg := Vector.replicate 32 0#32, mem := [], io := Vector.replicate 144 0#32, vid := []
    cfg := { ramSize := ram, videoSize := vid,
             videoEnd := BitVec.ofNat 32 (Config.videoBase + vid.toNat - 1) } }

/-- CONFIG's checks, video before RAM, and the fresh block (43_bus.md R141; 60_exceptions.md R184; log 14). -/
def configure (ram vid : Word) : Except Response Bus :=
  if Config.videoMaxEnd < Config.videoBase + vid.toNat - 1 then .error (configVideoError vid)
  else if Config.ramSizeMax < ram.toNat then .error (configRamError ram)
  else .ok (Bus.fresh ram vid)

/-! ## The image loops -/

/-- The bus address of image word `i` (44_image.md R161). The address fits for every word of a legal bank
(20_memory.md R60; log 11 for others). -/
def imageAddress (i : Nat) : Word := BitVec.ofNat 32 (Config.memBase + i)

/-- IMGSAVE's loop over `count` words from word `i`, ascending (44_image.md R162). -/
def saveWords (b : Bus) (i : Nat) : (count : Nat) → Except Response (List Byte)
  | 0 => .ok []
  | count + 1 =>
    match busRead b (imageAddress i) with
    | .error e => .error e
    | .ok w =>
      match saveWords b (i + 1) count with
      | .error e => .error e
      | .ok out => .ok (be32 w ++ out)

/-- IMGLOAD's bounds error at image word `i` (44_image.md R163; 60_exceptions.md R182). -/
def imageBoundsError (b : Bus) (i : Nat) : Response :=
  { errorResponse .memBounds with
      eAddr := fit32 (Config.memBase + i), eOff := fit32 i, eLen := some b.cfg.ramSize, eIdx := fit32 i }

/-- IMGLOAD's loop over the words from word `i`, ascending: the bus after it, and the error that ended it, if one did. The
words before a failing one stay written (44_image.md R163; log 18). -/
def loadWords (b : Bus) (i : Nat) : List Word → Bus × Option Response
  | [] => (b, none)
  | w :: ws =>
    if b.cfg.ramSize.toNat ≤ i then (b, some (imageBoundsError b i))
    else
      match busWrite b (imageAddress i) w with
      | .error e => (b, some { e with eIdx := fit32 i })
      | .ok b' => loadWords b' (i + 1) ws

/-! ## Taking and answering a request -/

/-- Give the response and leave the block as it is. -/
def State.reply (s : State) (r : Response) : State := { s with response := some r }

/-- Give the response and put the block in a new configured state. -/
def State.commit (s : State) (b : Bus) (r : Response) : State := { s with block := .configured b, response := some r }

/-- Raise an error: the block's one way to take an exception. The error is the response; nothing is saved, no mode or
control changes, and the block waits for the next request (60_exceptions.md R180, R185, R186). -/
def State.raise (s : State) (e : Response) : Host.Outcome State Fault Refusal := .next (s.reply e)

/-- An operation that changes no block state, on a configured block; NOT_CONFIGURED comes before its own checks
(60_exceptions.md R184; 70_reset_and_hazards.md R200). -/
def query (f : Bus → Except Response Response) (s : State) : Host.Outcome State Fault Refusal :=
  match s.block with
  | .unconfigured => s.raise (errorResponse .notConfigured)
  | .configured b =>
    match f b with
    | .error e => s.raise e
    | .ok r => .next (s.reply r)

/-- An operation that writes block state, on a configured block; when it fails, nothing is written (20_memory.md R55). -/
def update (f : Bus → Except Response Bus) (s : State) : Host.Outcome State Fault Refusal :=
  match s.block with
  | .unconfigured => s.raise (errorResponse .notConfigured)
  | .configured b =>
    match f b with
    | .error e => s.raise e
    | .ok b' => .next (s.commit b' (okResponse 0#32 0#32))

/-- A word read as a response: the word in `r0` (30_encoding.md R83). -/
def wordResponse : Except Response Word → Except Response Response
  | .error e => .error e
  | .ok w => .ok (okResponse w 0#32)

/-- The owner issues a request for the block to take next (20_memory.md R73). -/
def State.issue (s : State) (r : Request) : State := { s with requests := r :: s.requests }

/-- The request the block takes next, and the machine with it taken (20_memory.md R67). -/
def State.fetch (s : State) : Option (Request × State) :=
  match s.requests with
  | [] => none
  | r :: rest => some (r, { s with requests := rest })

/-- What a reserved command byte gets: INVALID_COMMAND, no field and no state change (30_encoding.md R88). -/
def State.rejectCommand (s : State) : Host.Outcome State Fault Refusal := s.raise (errorResponse .invalidCommand)

/-- Between requests the block holds its state unchanged (60_exceptions.md R180, R193; DEDUCED: log 2). -/
def State.idle (s : State) : Host.Outcome State Fault Refusal := .next s

end Sys2Proof.Machine
end

