-- ==== Sys2Proof/Machine/BusOps.lean ====
section
/-! DEFINITION. The bus operations: READ, WRITE, VIDEND and CONFIG (43_bus.md R140 to R144). -/

namespace Sys2Proof.Machine

/-- READ (R143). -/
def execRead (a : Word) (s : State) : Host.Outcome State Fault Refusal :=
  query (fun b => wordResponse (busRead b a)) s

/-- WRITE (R144). -/
def execWrite (a v : Word) (s : State) : Host.Outcome State Fault Refusal :=
  update (fun b => busWrite b a v) s

/-- VIDEND (R142). -/
def execVidend (s : State) : Host.Outcome State Fault Refusal :=
  query (fun b => .ok (okResponse b.cfg.videoEnd 0#32)) s

/-- CONFIG (R141): the one operation an unconfigured block performs. A failing CONFIG changes nothing; a successful one
replaces the block by a fresh one, whatever it held (R201). -/
def execConfig (ram vid : Word) (s : State) : Host.Outcome State Fault Refusal :=
  match configure ram vid with
  | .error e => s.raise e
  | .ok b => .next (s.commit b (okResponse 0#32 0#32))

end Sys2Proof.Machine
end

