-- ==== Sys2Proof/Machine/Classify.lean ====
section
/-! DEFINITION. The address decoder's operation, CLASSIFY (41_address_decode.md R100). -/

namespace Sys2Proof.Machine

/-- CLASSIFY's response: the kind code and the offset, from the address alone (R100; 20_memory.md R58). The offset is at
most the address, so it fits its field. -/
def classifyResponse (a : Word) : Response :=
  okResponse (classify a).1.code (BitVec.ofNat 32 (classify a).2)

/-- CLASSIFY (R100): no address makes it fail. -/
def execClassify (a : Word) (s : State) : Host.Outcome State Fault Refusal :=
  query (fun _ => .ok (classifyResponse a)) s

end Sys2Proof.Machine
end

