-- ==== Sys2Proof/Machine/Devices.lean ====
section
/-! DEFINITION. The device operations: DEVRD, DEVWR and DEVLEN of each device, by offset and without address classification
(42_devices.md R110 to R121). -/

namespace Sys2Proof.Machine

/-- DEVRD.REG (R110). -/
def execDevrdReg (off : Word) (s : State) : Host.Outcome State Fault Refusal :=
  query (fun b => wordResponse (devRead b .reg off.toNat)) s

/-- DEVRD.MEM (R111). -/
def execDevrdMem (off : Word) (s : State) : Host.Outcome State Fault Refusal :=
  query (fun b => wordResponse (devRead b .mem off.toNat)) s

/-- DEVRD.IO (R112). -/
def execDevrdIo (off : Word) (s : State) : Host.Outcome State Fault Refusal :=
  query (fun b => wordResponse (devRead b .io off.toNat)) s

/-- DEVRD.VID (R113). -/
def execDevrdVid (off : Word) (s : State) : Host.Outcome State Fault Refusal :=
  query (fun b => wordResponse (devRead b .vid off.toNat)) s

/-- DEVWR.REG (R114): a special register is storage only. -/
def execDevwrReg (off v : Word) (s : State) : Host.Outcome State Fault Refusal :=
  update (fun b => devWrite b .reg off.toNat v) s

/-- DEVWR.MEM (R115). -/
def execDevwrMem (off v : Word) (s : State) : Host.Outcome State Fault Refusal :=
  update (fun b => devWrite b .mem off.toNat v) s

/-- DEVWR.IO (R116). -/
def execDevwrIo (off v : Word) (s : State) : Host.Outcome State Fault Refusal :=
  update (fun b => devWrite b .io off.toNat v) s

/-- DEVWR.VID (R117). -/
def execDevwrVid (off v : Word) (s : State) : Host.Outcome State Fault Refusal :=
  update (fun b => devWrite b .vid off.toNat v) s

/-- DEVLEN.REG (R118): 32, the two padding words counted. -/
def execDevlenReg (s : State) : Host.Outcome State Fault Refusal :=
  query (fun _ => .ok (okResponse 32#32 0#32)) s

/-- DEVLEN.MEM (R119). -/
def execDevlenMem (s : State) : Host.Outcome State Fault Refusal :=
  query (fun b => .ok (okResponse b.cfg.ramSize 0#32)) s

/-- DEVLEN.IO (R120). -/
def execDevlenIo (s : State) : Host.Outcome State Fault Refusal :=
  query (fun _ => .ok (okResponse 144#32 0#32)) s

/-- DEVLEN.VID (R121). -/
def execDevlenVid (s : State) : Host.Outcome State Fault Refusal :=
  query (fun b => .ok (okResponse b.cfg.videoSize 0#32)) s

end Sys2Proof.Machine
end

