-- ==== Sys2Proof/Machine/Image.lean ====
section
/-! DEFINITION. The image port: IMGSAVE and IMGLOAD (44_image.md R160 to R164). Each is one step of the machine
(70_reset_and_hazards.md R208; log 4). -/

namespace Sys2Proof.Machine

/-- IMGSAVE's answer on a configured block: the whole bank is read, then the host's report is looked at (R162). -/
def saveImage (dst : SaveReport) (b : Bus) : Except Response Response :=
  match saveWords b 0 b.cfg.ramSize.toNat with
  | .error e => .error e
  | .ok out =>
    match dst with
    | .ioFail => .error (errorResponse .ioError)
    | .stored => .ok { okResponse b.cfg.ramSize 0#32 with out := some out }

/-- IMGSAVE (R162): it changes no block state. -/
def execImgsave (dst : SaveReport) (s : State) : Host.Outcome State Fault Refusal :=
  query (saveImage dst) s

/-- IMGLOAD's stream on a configured block: the length check before any write, then the words (R163). The bus is the one
after the loop, also where an error ended it. -/
def loadImage (b : Bus) (bytes : List Byte) : Bus × Response :=
  if bytes.length % 4 ≠ 0 then (b, imageLengthError bytes.length)
  else
    match loadWords b 0 (imageWords bytes) with
    | (b', some e) => (b', e)
    | (b', none) => (b', okResponse (BitVec.ofNat 32 (bytes.length / 4)) 0#32)

/-- IMGLOAD (R163). -/
def execImgload (src : ImageSource) (s : State) : Host.Outcome State Fault Refusal :=
  match s.block with
  | .unconfigured => s.raise (errorResponse .notConfigured)
  | .configured b =>
    match src with
    | .notFound => s.raise (errorResponse .resourceNotFound)
    | .ioFail => s.raise (errorResponse .ioError)
    | .bytes bytes => .next (s.commit (loadImage b bytes).1 (loadImage b bytes).2)

end Sys2Proof.Machine
end

