-- ==== Sys2Proof/Machine/Dispatch.lean ====
section
/-! DEFINITION. One arm per operation (30_encoding.md R83), each one call of its meaning. -/

namespace Sys2Proof.Machine

/-- Run one instruction. -/
def exec (i : Instr) (s : State) : Host.Outcome State Fault Refusal :=
  match i with
  | .classify a => Sys2Proof.Machine.execClassify a s
  | .read a => Sys2Proof.Machine.execRead a s
  | .write a v => Sys2Proof.Machine.execWrite a v s
  | .devrdReg off => Sys2Proof.Machine.execDevrdReg off s
  | .devrdMem off => Sys2Proof.Machine.execDevrdMem off s
  | .devrdIo off => Sys2Proof.Machine.execDevrdIo off s
  | .devrdVid off => Sys2Proof.Machine.execDevrdVid off s
  | .devwrReg off v => Sys2Proof.Machine.execDevwrReg off v s
  | .devwrMem off v => Sys2Proof.Machine.execDevwrMem off v s
  | .devwrIo off v => Sys2Proof.Machine.execDevwrIo off v s
  | .devwrVid off v => Sys2Proof.Machine.execDevwrVid off v s
  | .devlenReg => Sys2Proof.Machine.execDevlenReg s
  | .devlenMem => Sys2Proof.Machine.execDevlenMem s
  | .devlenIo => Sys2Proof.Machine.execDevlenIo s
  | .devlenVid => Sys2Proof.Machine.execDevlenVid s
  | .vidend => Sys2Proof.Machine.execVidend s
  | .config ram vid => Sys2Proof.Machine.execConfig ram vid s
  | .imgsave dst => Sys2Proof.Machine.execImgsave dst s
  | .imgload src => Sys2Proof.Machine.execImgload src s

end Sys2Proof.Machine
end

