-- ==== Sys2Proof/Machine/Step.lean ====
section
/-! DEFINITION. One step: take the next request, decode it and run it; a reserved command byte is answered INVALID_COMMAND
before any other check (30_encoding.md R88; 60_exceptions.md R184). -/

namespace Sys2Proof.Machine

/-- One step of the machine: one request from taken to answered (20_memory.md R67; 70_reset_and_hazards.md R208). -/
def step (s : State) : Host.Outcome State Fault Refusal :=
  match s.fetch with
  | none => s.idle
  | some (r, t) =>
    match decode r with
    | .error _ => t.rejectCommand
    | .ok i => exec i t

/-- `s` with a table word's request issued, to be taken by the very next step (log 1, log 5). -/
def State.withFetchWord (s : State) (nbits w : Nat) : State := s.issue (tableRequest nbits w)

end Sys2Proof.Machine
end

