-- ==== Sys2Proof/Machine/Assembler.lean ====
section
/-! DEFINITION. The textual syntax of requests (30_encoding.md R91) with the pseudo-instructions GETR and SETR (R92). A line is
a list of characters. What R91 leaves open of it (white space, letter case, the case of hexadecimal digits) is fixed here
(DESIGN CHOICE, safe: log 12). -/

namespace Sys2Proof.Machine

/-- White space between the parts of a line. -/
def isBlank (c : Char) : Bool := c == ' ' || c == '\t'

/-- A text without the white space around it. -/
def trim (cs : List Char) : List Char := ((cs.dropWhile isBlank).reverse.dropWhile isBlank).reverse

/-- A line without its comment, which `;` starts (R91). -/
def stripComment (cs : List Char) : List Char := cs.takeWhile (fun c => c != ';')

/-- The value of a digit in a base of at most 16. -/
def digitValue (base : Nat) (c : Char) : Option Nat :=
  let v :=
    if '0'.toNat ≤ c.toNat ∧ c.toNat ≤ '9'.toNat then c.toNat - '0'.toNat
    else if 'a'.toNat ≤ c.toNat ∧ c.toNat ≤ 'f'.toNat then c.toNat - 'a'.toNat + 10
    else if 'A'.toNat ≤ c.toNat ∧ c.toNat ≤ 'F'.toNat then c.toNat - 'A'.toNat + 10
    else base
  if v < base then some v else none

/-- The value of digits that follow the value `acc`. -/
def digitsFrom (base acc : Nat) : List Char → Option Nat
  | [] => some acc
  | c :: cs =>
    match digitValue base c with
    | some v => digitsFrom base (acc * base + v) cs
    | none => none

/-- A number: decimal, or hexadecimal after `0x`, with at least one digit (R91). -/
def parseNumber : List Char → Option Nat
  | [] => none
  | '0' :: 'x' :: c :: cs => digitsFrom 16 0 (c :: cs)
  | c :: cs => digitsFrom 10 0 (c :: cs)

/-- An operand that fits a 32-bit field (R91). -/
def parseWord (cs : List Char) : Option Word :=
  match parseNumber (trim cs) with
  | some n => fit32 n
  | none => none

/-- A byte of a stream (R91). -/
def parseByte (cs : List Char) : Option Byte :=
  match parseNumber (trim cs) with
  | some n => if n < 256 then some (BitVec.ofNat 8 n) else none
  | none => none

/-- The texts between commas. -/
def splitCommas : List Char → List (List Char)
  | [] => [[]]
  | c :: cs =>
    match c == ',', splitCommas cs with
    | true, parts => [] :: parts
    | false, [] => [[c]]
    | false, part :: parts => (c :: part) :: parts

/-- Every text a byte, or no stream. -/
def parseBytes : List (List Char) → Option (List Byte)
  | [] => some []
  | part :: parts =>
    match parseByte part, parseBytes parts with
    | some b, some bs => some (b :: bs)
    | _, _ => none

/-- IMGLOAD's operand: a byte list in brackets, NOTFOUND or IOFAIL (R91). -/
def parseSource (cs : List Char) : Option ImageSource :=
  match cs with
  | '[' :: inner =>
    if inner.getLast? = some ']' then
      if trim inner.dropLast = [] then some (.bytes [])
      else (parseBytes (splitCommas inner.dropLast)).map .bytes
    else none
  | _ =>
    match String.ofList cs with
    | "NOTFOUND" => some .notFound
    | "IOFAIL" => some .ioFail
    | _ => none

/-- The name of a special register (10_state.md R27; R92). -/
def parseSpecial (cs : List Char) : Option SpecialReg :=
  match String.ofList (trim cs) with
  | "PC" => some .pc
  | "MODE" => some .mode
  | "SP" => some .sp
  | "TIMER" => some .timer
  | "INT0" => some .int0
  | "INT1" => some .int1
  | "SND0" => some .snd0
  | "SND1" => some .snd1
  | "SND2" => some .snd2
  | "SND3" => some .snd3
  | "CMP" => some .cmp
  | "EXIT" => some .exit
  | "BTSRC" => some .btsrc
  | "BTLEN" => some .btlen
  | _ => none

/-- No operand. -/
def noOperand (i : Instr) : List Char → Option Instr
  | [] => some i
  | _ :: _ => none

/-- One word operand. -/
def oneWord (f : Word → Instr) (ops : List Char) : Option Instr := (parseWord ops).map f

/-- Two word operands with a comma between them. -/
def twoWords (f : Word → Word → Instr) (ops : List Char) : Option Instr :=
  match splitCommas ops with
  | [x, y] =>
    match parseWord x, parseWord y with
    | some a, some b => some (f a b)
    | _, _ => none
  | _ => none

/-- A register name and a word with a comma between them. -/
def nameAndWord (f : SpecialReg → Word → Instr) (ops : List Char) : Option Instr :=
  match splitCommas ops with
  | [x, y] =>
    match parseSpecial x, parseWord y with
    | some r, some v => some (f r v)
    | _, _ => none
  | _ => none

/-- The request of a mnemonic and its operands' text; IMGSAVE's report `dst` is the host's and is no part of the line
(R91, R92). -/
def assembleParts (dst : SaveReport) (mnemonic ops : List Char) : Option Instr :=
  match String.ofList mnemonic with
  | "CLASSIFY" => oneWord .classify ops
  | "READ" => oneWord .read ops
  | "WRITE" => twoWords .write ops
  | "DEVRD.REG" => oneWord .devrdReg ops
  | "DEVRD.MEM" => oneWord .devrdMem ops
  | "DEVRD.IO" => oneWord .devrdIo ops
  | "DEVRD.VID" => oneWord .devrdVid ops
  | "DEVWR.REG" => twoWords .devwrReg ops
  | "DEVWR.MEM" => twoWords .devwrMem ops
  | "DEVWR.IO" => twoWords .devwrIo ops
  | "DEVWR.VID" => twoWords .devwrVid ops
  | "DEVLEN.REG" => noOperand .devlenReg ops
  | "DEVLEN.MEM" => noOperand .devlenMem ops
  | "DEVLEN.IO" => noOperand .devlenIo ops
  | "DEVLEN.VID" => noOperand .devlenVid ops
  | "VIDEND" => noOperand .vidend ops
  | "CONFIG" => twoWords .config ops
  | "IMGSAVE" => noOperand (.imgsave dst) ops
  | "IMGLOAD" => (parseSource ops).map .imgload
  | "GETR" => (parseSpecial ops).map getr
  | "SETR" => nameAndWord setr ops
  | _ => none

/-- The request a line spells, if it spells one (R91, R92). -/
def assembleLine (dst : SaveReport) (line : List Char) : Option Instr :=
  let body := trim (stripComment line)
  assembleParts dst (body.takeWhile (fun c => !isBlank c)) (trim (body.dropWhile (fun c => !isBlank c)))

end Sys2Proof.Machine
end

