-- ==== Sys2Proof/Safety.lean ====
section
/-! DEFINITION. What claims rest on: the invariant of the block's state (10_state.md R20 to R25), the form of a response
(30_encoding.md R81), runs of several requests, and what a device word is. -/

namespace Sys2Proof.Machine

/-- A configured block that a run can reach: both sparse memories in canonical form and inside their lengths, the two
sizes legal (00_scope.md R7) and `video_end` as R25 says. -/
structure Bus.Inv (b : Bus) : Prop where
  memWf      : b.mem.wf
  vidWf      : b.vid.wf
  memInside  : ∀ c ∈ b.mem, c.1 < b.cfg.ramSize.toNat
  vidInside  : ∀ c ∈ b.vid, c.1 < b.cfg.videoSize.toNat
  ramLegal   : b.cfg.ramSize.toNat ≤ Config.ramSizeMax
  videoLegal : b.cfg.videoSize.toNat ≤ Config.videoSizeMax
  endExact   : b.cfg.videoEnd.toNat = Config.videoBase + b.cfg.videoSize.toNat - 1

/-- The invariant of the machine: a configured block is a reachable one. -/
def State.Inv (s : State) : Prop := ∀ b, s.block = .configured b → b.Inv

/-- The form of a response: a success has no information field; an error has zero result words and no stream
(30_encoding.md R81). -/
def Response.wf (r : Response) : Prop :=
  (r.status = .ok → r.eAddr = none ∧ r.eOff = none ∧ r.eLen = none ∧ r.eIdx = none) ∧
  (r.status ≠ .ok → r.r0 = 0#32 ∧ r.r1 = 0#32 ∧ r.out = none)

/-- DEVRD of a device. -/
def devrd : Device → Word → Instr
  | .reg => .devrdReg
  | .mem => .devrdMem
  | .io => .devrdIo
  | .vid => .devrdVid

/-- DEVWR of a device. -/
def devwr : Device → Word → Word → Instr
  | .reg => .devwrReg
  | .mem => .devwrMem
  | .io => .devwrIo
  | .vid => .devwrVid

/-- On a machine whose block is `b`, instruction `i` completes and stores `v` in word `off` of device `d`, and that is all
it does: every other word of every device, `cfg` and the pending requests stay, and the response is a plain success. -/
def StoresWord (i : Instr) (s : State) (b : Bus) (d : Device) (off : Nat) (v : Word) : Prop :=
  ∃ b', exec i s = .next { s with block := .configured b', response := some (okResponse 0#32 0#32) } ∧
    b'.cfg = b.cfg ∧ b'.word d off = v ∧ ∀ d' off', d' ≠ d ∨ off' ≠ off → b'.word d' off' = b.word d' off'

/-- `b'` is `b` but for words of the memory bank. -/
def OnlyBankChanged (b b' : Bus) : Prop :=
  b'.cfg = b.cfg ∧ b'.reg = b.reg ∧ b'.io = b.io ∧ b'.vid = b.vid ∧
    ∀ j, b.cfg.ramSize.toNat ≤ j → b'.word .mem j = b.word .mem j

/-- Run instructions one after another. -/
def runInstrs : List Instr → State → Host.Outcome State Fault Refusal
  | [], s => .next s
  | i :: is, s =>
    match exec i s with
    | .next t => runInstrs is t
    | .fault f => .fault f
    | .refused f => .refused f

/-- The value WRITE, DEVWR or IMGLOAD gives a device word: what instruction `i`, run on the configured block `b`,
writes to word `off` of device `d`, if it writes it. CONFIG is no such write: it makes a fresh block. -/
def wordWritten (b : Bus) (d : Device) (off : Nat) : Instr → Option Word
  | .write a v => if (classify a).1.device = some d ∧ (classify a).2 = off ∧ off < b.len d then some v else none
  | .devwrReg o v => if d = .reg ∧ o.toNat = off ∧ off < b.len d then some v else none
  | .devwrMem o v => if d = .mem ∧ o.toNat = off ∧ off < b.len d then some v else none
  | .devwrIo o v => if d = .io ∧ o.toNat = off ∧ off < b.len d then some v else none
  | .devwrVid o v => if d = .vid ∧ o.toNat = off ∧ off < b.len d then some v else none
  | .imgload (.bytes s) =>
    if d = .mem ∧ off < b.len d ∧ s.length % 4 = 0 then (imageWords s)[off]? else none
  | _ => none

/-- An instruction is CONFIG. -/
def isConfig : Instr → Bool
  | .config _ _ => true
  | _ => false

/-- The value of a device word after instructions none of which is a CONFIG: the last value written to it, or the value
it had (20_memory.md R68). -/
def lastWritten (b : Bus) (d : Device) (off : Nat) : List Instr → Word → Word
  | [], w => w
  | i :: is, w => lastWritten b d off is ((wordWritten b d off i).getD w)

end Sys2Proof.Machine
end

