-- ==== Sys2Proof/Certificates/Slice0/Obligations.lean ====
section
/-! DEFINITION. The statements for the provers. Where a docstring names a decision D<n>, the spec marks that behaviour as its
own choice (92_eei_decisions.md); the statement then has basis 'derived'. -/

open Sys2Proof Sys2Proof.Machine

/-! ## Encoding -/

/-- Encoding loses nothing: an instruction's request, as a word and as nine bytes, decodes to the instruction
(30_encoding.md; the format is the spec's decision D12, the byte order of the nine bytes the model's choice, log 5). -/
def Obligations.DecodeOfEncodeIsTheInstruction : Prop :=
  ∀ i : Instr, decode (encode i) = .ok i ∧ decodeBytes (encodeBytes i) (encodeSrc i) (encodeDst i) = .ok i

/-- The table's nineteen command bytes, and no other, pass R82's checks and decode (30_encoding.md; decisions D12, D13). -/
def Obligations.ExactlyTheTablesCommandBytesDecode : Prop :=
  ∀ (cmd : Byte) (a d : Word) (src : ImageSource) (dst : SaveReport),
    (commandWellFormed cmd = true ↔
      cmd ∈ [0x10#8, 0x20#8, 0x30#8, 0x40#8, 0x41#8, 0x42#8, 0x43#8, 0x50#8, 0x51#8, 0x52#8, 0x53#8,
        0x60#8, 0x61#8, 0x62#8, 0x63#8, 0x70#8, 0x80#8, 0x90#8, 0xA0#8]) ∧
    ((∃ i, decodeCommand cmd a d src dst = .ok i) ↔ commandWellFormed cmd = true)

/-- The fields of a request become the operands unchanged, and an ignored field changes nothing: each row of R83's table,
for every value of `a`, `d` and the host's draws (30_encoding.md; decision D12). -/
def Obligations.RequestFieldsBecomeOperandsUnchanged : Prop :=
  ∀ (a d : Word) (src : ImageSource) (dst : SaveReport),
    decode ⟨0x10#8 ++ a ++ d, src, dst⟩ = .ok (.classify a) ∧
    decode ⟨0x20#8 ++ a ++ d, src, dst⟩ = .ok (.read a) ∧
    decode ⟨0x30#8 ++ a ++ d, src, dst⟩ = .ok (.write a d) ∧
    decode ⟨0x40#8 ++ a ++ d, src, dst⟩ = .ok (.devrdReg a) ∧
    decode ⟨0x41#8 ++ a ++ d, src, dst⟩ = .ok (.devrdMem a) ∧
    decode ⟨0x42#8 ++ a ++ d, src, dst⟩ = .ok (.devrdIo a) ∧
    decode ⟨0x43#8 ++ a ++ d, src, dst⟩ = .ok (.devrdVid a) ∧
    decode ⟨0x50#8 ++ a ++ d, src, dst⟩ = .ok (.devwrReg a d) ∧
    decode ⟨0x51#8 ++ a ++ d, src, dst⟩ = .ok (.devwrMem a d) ∧
    decode ⟨0x52#8 ++ a ++ d, src, dst⟩ = .ok (.devwrIo a d) ∧
    decode ⟨0x53#8 ++ a ++ d, src, dst⟩ = .ok (.devwrVid a d) ∧
    decode ⟨0x60#8 ++ a ++ d, src, dst⟩ = .ok .devlenReg ∧
    decode ⟨0x61#8 ++ a ++ d, src, dst⟩ = .ok .devlenMem ∧
    decode ⟨0x62#8 ++ a ++ d, src, dst⟩ = .ok .devlenIo ∧
    decode ⟨0x63#8 ++ a ++ d, src, dst⟩ = .ok .devlenVid ∧
    decode ⟨0x70#8 ++ a ++ d, src, dst⟩ = .ok .vidend ∧
    decode ⟨0x80#8 ++ a ++ d, src, dst⟩ = .ok (.config a d) ∧
    decode ⟨0x90#8 ++ a ++ d, src, dst⟩ = .ok (.imgsave dst) ∧
    decode ⟨0xA0#8 ++ a ++ d, src, dst⟩ = .ok (.imgload src)

/-- Request words written out from 95_test_vectors.md decode to the requests they stand for (decision D12). -/
def Obligations.RequestWordsWrittenOutDecode : Prop :=
  decode ⟨0x200010010A00000000#72, .bytes [], .stored⟩ = .ok (.read 0x0010010A#32) ∧
  decode ⟨0x300010010A12345678#72, .bytes [], .stored⟩ = .ok (.write 0x0010010A#32 0x12345678#32) ∧
  decode ⟨0x500000001200100200#72, .bytes [], .stored⟩ = .ok (.devwrReg 0x12#32 0x00100200#32) ∧
  decode ⟨0x800000040000000100#72, .bytes [], .stored⟩ = .ok (.config 1024#32 256#32) ∧
  decode ⟨0x10FFFFFFFF00000000#72, .bytes [], .stored⟩ = .ok (.classify 0xFFFFFFFF#32) ∧
  decode ⟨0xA00000000000000000#72, .bytes [0xDE#8], .stored⟩ = .ok (.imgload (.bytes [0xDE#8])) ∧
  decode ⟨0x440000000000000000#72, .bytes [], .stored⟩ = .error .reservedBits

/-- Lines of text and the requests they spell (30_encoding.md; decision D24, and D6 for register names). -/
def Obligations.AssembledLinesSpellTheirRequests : Prop :=
  assembleLine .stored "WRITE     0x0010010A, 0x12345678 ; scenario 1".toList =
    some (.write 0x0010010A#32 0x12345678#32) ∧
  assembleLine .stored "CONFIG 1024, 256".toList = some (.config 1024#32 256#32) ∧
  assembleLine .stored "GETR PC".toList = some (.devrdReg 0x10#32) ∧
  assembleLine .stored "SETR SP, 0x100200".toList = some (.devwrReg 0x12#32 0x100200#32) ∧
  assembleLine .ioFail "IMGSAVE".toList = some (.imgsave .ioFail) ∧
  assembleLine .stored "IMGLOAD [0xDE, 173, 0xBE, 0xEF]".toList =
    some (.imgload (.bytes [0xDE#8, 0xAD#8, 0xBE#8, 0xEF#8])) ∧
  assembleLine .stored "IMGLOAD NOTFOUND".toList = some (.imgload .notFound) ∧
  assembleLine .stored "READ 0x100000000".toList = none

/-! ## The step -/

/-- A step runs the request it takes: it removes the oldest pending request and is `exec` of the instruction that request
decodes to (20_memory.md §5; the pending list is the model's own, log 1). -/
def Obligations.StepRunsTheDecodedInstruction : Prop :=
  ∀ (s : State) (r : Request) (rest : List Request) (i : Instr),
    s.requests = r :: rest → decode r = .ok i → step s = exec i { s with requests := rest }

/-- A reserved command byte is answered INVALID_COMMAND, with no information field and no change of the block, on an
unconfigured block too (30_encoding.md; decision D13). -/
def Obligations.ReservedCommandIsAnsweredInvalid : Prop :=
  ∀ (s : State) (r : Request) (rest : List Request),
    s.requests = r :: rest → commandWellFormed (requestCmd r.word) = false →
    step s = .next { s with
      requests := rest
      response := some ⟨.invalidCommand, 0#32, 0#32, none, none, none, none, none⟩ }

/-- Between requests the block holds its state (60_exceptions.md §4; an inference, log 2). -/
def Obligations.IdleBlockHoldsItsState : Prop :=
  ∀ s : State, s.requests = [] → step s = .next s

/-- Whatever the request, the step takes it, ends, and gives a response of R81's form: nothing stops the block
(30_encoding.md §1, 60_exceptions.md §1, 70_reset_and_hazards.md §3; decision D12). -/
def Obligations.EveryRequestGetsAWellFormedResponse : Prop :=
  ∀ (s : State) (r : Request) (rest : List Request), s.requests = r :: rest →
    ∃ t resp, step s = .next t ∧ t.requests = rest ∧ t.response = some resp ∧ resp.wf

/-! ## The address decoder -/

/-- CLASSIFY's response over the whole address space, and nothing else changes (20_memory.md §3, 41_address_decode.md; the
zero offset and the codes are decision D19). -/
def Obligations.ClassifyAnswersKindAndOffset : Prop :=
  ∀ (s : State) (b : Bus) (a : Word), s.block = .configured b →
    exec (.classify a) s = .next { s with response := some (
      if a ≤ 0x1D#32 then okResponse 0#32 a
      else if a ≤ 0x1F#32 then okResponse 5#32 0#32
      else if a ≤ 0x54#32 then okResponse 1#32 0#32
      else if a ≤ 0x6F#32 then okResponse 5#32 0#32
      else if a ≤ 0xFF#32 then okResponse 2#32 (a - 0x70#32)
      else if a ≤ 0x001000FF#32 then okResponse 3#32 (a - 0x100#32)
      else okResponse 4#32 (a - 0x00100100#32)) }

/-- The boundaries the source lists (R102). -/
def Obligations.ListedBoundaryAddressesHaveTheirKinds : Prop :=
  (classify 0x1D#32).1 = .register ∧ (classify 0x20#32).1 = .opcode ∧ (classify 0x54#32).1 = .opcode ∧
  (classify 0x70#32).1 = .io ∧ (classify 0xFF#32).1 = .io ∧ (classify 0x100#32).1 = .video ∧
  (classify 0x00100100#32).1 = .main

/-- The kind of an address by its bits, and the I/O offset by its low byte (30_encoding.md §3, a rule the spec marks as
derived). -/
def Obligations.AddressBitsDecideTheKind : Prop :=
  ∀ a : Word,
    ((classify a).1 = .register ↔ a.extractLsb' 5 27 = 0#27 ∧ (a.extractLsb' 0 5).toNat ≤ 0x1D) ∧
    ((classify a).1 = .reserved ↔
      a.extractLsb' 1 31 = 0xF#31 ∨
      (a.extractLsb' 7 25 = 0#25 ∧ 0x55 ≤ (a.extractLsb' 0 7).toNat ∧ (a.extractLsb' 0 7).toNat ≤ 0x6F)) ∧
    ((classify a).1 = .opcode ↔
      a.extractLsb' 7 25 = 0#25 ∧ 0x20 ≤ (a.extractLsb' 0 7).toNat ∧ (a.extractLsb' 0 7).toNat ≤ 0x54) ∧
    ((classify a).1 = .io ↔ a.extractLsb' 8 24 = 0#24 ∧ 0x70 ≤ (a.extractLsb' 0 8).toNat) ∧
    ((classify a).1 = .video ↔ 0x100 ≤ a.toNat ∧ a.toNat ≤ 0x001000FF) ∧
    ((classify a).1 = .main ↔ 0x00100100 ≤ a.toNat) ∧
    ((classify a).1 = .io → (classify a).2 = (a.extractLsb' 0 8).toNat - 0x70)

/-- Every device word but the two padding words has exactly one bus address, and the padding words have none
(20_memory.md §3; a rule the spec marks as derived, with decisions D2, D9 and D17). -/
def Obligations.EachDeviceWordHasOneAddress : Prop :=
  ∀ b : Bus, b.Inv →
    (∀ d off, off < b.len d → (d = .reg → off ≤ 0x1D) →
      ∃ a : Word, (classify a).1.device = some d ∧ (classify a).2 = off ∧
        ∀ a' : Word, (classify a').1.device = some d → (classify a').2 = off → a' = a) ∧
    (∀ a : Word, (classify a).1.device = some .reg → (classify a).2 ≤ 0x1D)

/-- Addresses of one kind are treated alike (R103). First, CLASSIFY, READ and WRITE at an address are functions of its kind,
its offset, the device contents and `cfg` (and the word written), and the address itself is seen only in the error field that
reports it. Second, no offset of a kind is special: within the device's length a READ depends on the offset only through
the word there and a WRITE replaces that word and nothing else, with one response for the whole kind; past the length
both depend only on the offset and the length; and CLASSIFY's code depends on the kind alone. -/
def Obligations.OperationsAreUniformWithinAKind : Prop :=
  (∃ (c : Kind → Nat → Response) (f : Kind → Nat → Bus → Response) (g : Kind → Nat → Bus → Word → Block × Response),
    ∀ (s : State) (b : Bus) (a v : Word), s.block = .configured b →
      exec (.classify a) s = .next { s with response := some (c (classify a).1 (classify a).2) } ∧
      (∃ r, exec (.read a) s = .next { s with response := some r } ∧
        (r.eAddr = none ∨ r.eAddr = some a) ∧
        { r with eAddr := none } = f (classify a).1 (classify a).2 b) ∧
      (∃ blk r, exec (.write a v) s = .next { s with block := blk, response := some r } ∧
        (r.eAddr = none ∨ r.eAddr = some a) ∧
        (blk, { r with eAddr := none }) = g (classify a).1 (classify a).2 b v)) ∧
  (∃ (code : Kind → Word) (found : Kind → Word → Response) (stored : Kind → Response)
      (readPast writePast : Kind → Nat → Nat → Response) (readNone writeNone : Kind → Response),
    ∀ (s : State) (b : Bus) (a v : Word), s.block = .configured b → b.Inv →
      exec (.classify a) s =
        .next { s with response := some (okResponse (code (classify a).1) (BitVec.ofNat 32 (classify a).2)) } ∧
      (∀ d, (classify a).1.device = some d → (classify a).2 < b.len d →
        exec (.read a) s = .next { s with response := some (found (classify a).1 (b.word d (classify a).2)) } ∧
        ∃ b', exec (.write a v) s =
            .next { s with block := .configured b', response := some (stored (classify a).1) } ∧
          b'.cfg = b.cfg ∧
          ∀ d' off', b'.word d' off' = if d' = d ∧ off' = (classify a).2 then v else b.word d' off') ∧
      (∀ d, (classify a).1.device = some d → b.len d ≤ (classify a).2 →
        (∃ r, exec (.read a) s = .next { s with response := some r } ∧ (r.eAddr = none ∨ r.eAddr = some a) ∧
          { r with eAddr := none } = readPast (classify a).1 (classify a).2 (b.len d)) ∧
        (∃ r, exec (.write a v) s = .next { s with response := some r } ∧ (r.eAddr = none ∨ r.eAddr = some a) ∧
          { r with eAddr := none } = writePast (classify a).1 (classify a).2 (b.len d))) ∧
      ((classify a).1.device = none →
        (∃ r, exec (.read a) s = .next { s with response := some r } ∧ (r.eAddr = none ∨ r.eAddr = some a) ∧
          { r with eAddr := none } = readNone (classify a).1) ∧
        (∃ r, exec (.write a v) s = .next { s with response := some r } ∧ (r.eAddr = none ∨ r.eAddr = some a) ∧
          { r with eAddr := none } = writeNone (classify a).1)))

/-! ## Bus accesses -/

/-- READ of a mapped word inside its device returns the word and changes nothing else (43_bus.md). -/
def Obligations.ReadOfMappedWordReturnsIt : Prop :=
  ∀ (s : State) (b : Bus) (a : Word) (d : Device),
    s.block = .configured b → (classify a).1.device = some d → (classify a).2 < b.len d →
    exec (.read a) s = .next { s with response := some (okResponse (b.word d (classify a).2) 0#32) }

/-- A bus write changes exactly the one word it names, and a bus read changes nothing, at every address (R66). -/
def Obligations.AccessesChangeExactlyTheNamedWord : Prop :=
  ∀ (s : State) (b : Bus), s.block = .configured b → b.Inv →
    (∀ a, ∃ r, exec (.read a) s = .next { s with response := some r }) ∧
    (∀ a v d, (classify a).1.device = some d → (classify a).2 < b.len d →
      StoresWord (.write a v) s b d (classify a).2 v) ∧
    (∀ a v, (∀ d, (classify a).1.device = some d → b.len d ≤ (classify a).2) →
      ∃ r, exec (.write a v) s = .next { s with response := some r })

/-- READ and WRITE of an Opcode or Reserved address fail with the address, whatever the block holds (43_bus.md;
decision D1). -/
def Obligations.UnmappedAddressesFailBothWays : Prop :=
  ∀ (s : State) (b : Bus) (a v : Word), s.block = .configured b →
    (0x20 ≤ a.toNat ∧ a.toNat ≤ 0x54 →
      exec (.read a) s = .next { s with response := some { errorResponse .memOpcode with eAddr := some a } } ∧
      exec (.write a v) s = .next { s with response := some { errorResponse .memOpcode with eAddr := some a } }) ∧
    ((0x1E ≤ a.toNat ∧ a.toNat ≤ 0x1F) ∨ (0x55 ≤ a.toNat ∧ a.toNat ≤ 0x6F) →
      exec (.read a) s = .next { s with response := some { errorResponse .memReserved with eAddr := some a } } ∧
      exec (.write a v) s = .next { s with response := some { errorResponse .memReserved with eAddr := some a } })

/-- READ and WRITE of a Video or Main address past the configured size fail with MEM_BOUNDS, the address, the offset and
the length (43_bus.md, 20_memory.md §3; decisions D2 and D18). -/
def Obligations.AccessPastTheConfiguredSizeFails : Prop :=
  ∀ (s : State) (b : Bus) (a v : Word), s.block = .configured b →
    (0x100 + b.cfg.videoSize.toNat ≤ a.toNat ∧ a.toNat ≤ 0x001000FF →
      exec (.read a) s = .next { s with response := some { errorResponse .memBounds with
        eAddr := some a, eOff := some (a - 0x100#32), eLen := some b.cfg.videoSize } } ∧
      exec (.write a v) s = .next { s with response := some { errorResponse .memBounds with
        eAddr := some a, eOff := some (a - 0x100#32), eLen := some b.cfg.videoSize } }) ∧
    (0x00100100 + b.cfg.ramSize.toNat ≤ a.toNat →
      exec (.read a) s = .next { s with response := some { errorResponse .memBounds with
        eAddr := some a, eOff := some (a - 0x00100100#32), eLen := some b.cfg.ramSize } } ∧
      exec (.write a v) s = .next { s with response := some { errorResponse .memBounds with
        eAddr := some a, eOff := some (a - 0x00100100#32), eLen := some b.cfg.ramSize } })

/-- A word written over the bus is the word read back (43_bus.md, a rule the spec marks as derived). -/
def Obligations.WrittenWordReadsBack : Prop :=
  ∀ (s : State) (b : Bus) (a v : Word) (d : Device),
    s.block = .configured b → b.Inv → (classify a).1.device = some d → (classify a).2 < b.len d →
    ∃ t, exec (.write a v) s = .next t ∧ exec (.read a) t = .next { t with response := some (okResponse v 0#32) }

/-! ## Device accesses -/

/-- A device read at any offset of each device: the word, or MEM_BOUNDS with the offset and the device's length, and no
state change (R53). -/
def Obligations.DeviceReadReturnsWordOrBoundsError : Prop :=
  ∀ (s : State) (b : Bus) (off : Word), s.block = .configured b →
    exec (.devrdReg off) s = .next { s with response := some (
      if 32 ≤ off.toNat then { errorResponse .memBounds with eOff := some off, eLen := some 32#32 }
      else okResponse (b.word .reg off.toNat) 0#32) } ∧
    exec (.devrdMem off) s = .next { s with response := some (
      if b.cfg.ramSize.toNat ≤ off.toNat then
        { errorResponse .memBounds with eOff := some off, eLen := some b.cfg.ramSize }
      else okResponse (b.word .mem off.toNat) 0#32) } ∧
    exec (.devrdIo off) s = .next { s with response := some (
      if 144 ≤ off.toNat then { errorResponse .memBounds with eOff := some off, eLen := some 144#32 }
      else okResponse (b.word .io off.toNat) 0#32) } ∧
    exec (.devrdVid off) s = .next { s with response := some (
      if b.cfg.videoSize.toNat ≤ off.toNat then
        { errorResponse .memBounds with eOff := some off, eLen := some b.cfg.videoSize }
      else okResponse (b.word .vid off.toNat) 0#32) }

/-- A device write at any offset of each device: past the length it fails with the offset and the length before anything
changes; inside it stores the one word, and no other word of that device or of any other device changes (R54, R122). -/
def Obligations.DeviceWriteStoresOneWordOrFails : Prop :=
  ∀ (s : State) (b : Bus) (off v : Word), s.block = .configured b → b.Inv →
    (32 ≤ off.toNat → exec (.devwrReg off v) s = .next { s with
      response := some { errorResponse .memBounds with eOff := some off, eLen := some 32#32 } }) ∧
    (off.toNat < 32 → StoresWord (.devwrReg off v) s b .reg off.toNat v) ∧
    (b.cfg.ramSize.toNat ≤ off.toNat → exec (.devwrMem off v) s = .next { s with
      response := some { errorResponse .memBounds with eOff := some off, eLen := some b.cfg.ramSize } }) ∧
    (off.toNat < b.cfg.ramSize.toNat → StoresWord (.devwrMem off v) s b .mem off.toNat v) ∧
    (144 ≤ off.toNat → exec (.devwrIo off v) s = .next { s with
      response := some { errorResponse .memBounds with eOff := some off, eLen := some 144#32 } }) ∧
    (off.toNat < 144 → StoresWord (.devwrIo off v) s b .io off.toNat v) ∧
    (b.cfg.videoSize.toNat ≤ off.toNat → exec (.devwrVid off v) s = .next { s with
      response := some { errorResponse .memBounds with eOff := some off, eLen := some b.cfg.videoSize } }) ∧
    (off.toNat < b.cfg.videoSize.toNat → StoresWord (.devwrVid off v) s b .vid off.toNat v)

/-- The device lengths, as DEVLEN answers them (R52). -/
def Obligations.DeviceLengthsAreAnswered : Prop :=
  ∀ (s : State) (b : Bus), s.block = .configured b →
    exec .devlenReg s = .next { s with response := some (okResponse 32#32 0#32) } ∧
    exec .devlenIo s = .next { s with response := some (okResponse 144#32 0#32) } ∧
    exec .devlenVid s = .next { s with response := some (okResponse b.cfg.videoSize 0#32) } ∧
    exec .devlenMem s = .next { s with response := some (okResponse b.cfg.ramSize 0#32) }

/-- The two access paths agree: a bus access of a mapped address and the device access at its offset give the same response,
but for the address a bus error carries, and leave the same block (42_devices.md §4, a rule the spec marks as derived). -/
def Obligations.BusAndDevicePathsAgree : Prop :=
  ∀ (s : State) (b : Bus) (a v : Word) (d : Device),
    s.block = .configured b → (classify a).1.device = some d →
    (∃ r, exec (devrd d (BitVec.ofNat 32 (classify a).2)) s = .next { s with response := some r } ∧ r.eAddr = none ∧
      exec (.read a) s = .next { s with
        response := some { r with eAddr := if r.status = .ok then none else some a } }) ∧
    (∃ blk r, exec (devwr d (BitVec.ofNat 32 (classify a).2) v) s = .next { s with block := blk, response := some r } ∧
      r.eAddr = none ∧
      exec (.write a v) s = .next { s with
        block := blk
        response := some { r with eAddr := if r.status = .ok then none else some a } })

/-! ## Registers -/

/-- All 32 register-file words are read and written by DEVRD.REG and DEVWR.REG and the 30 words 0x00 to 0x1D by READ and
WRITE, and no other instruction but CONFIG, which resets the block, changes a register (10_state.md §4). -/
def Obligations.RegistersAreReachedAndNotWrittenOtherwise : Prop :=
  ∀ (s : State) (b : Bus), s.block = .configured b → b.Inv →
    (∀ off v : Word, off.toNat < 32 →
      exec (.devrdReg off) s = .next { s with response := some (okResponse (b.word .reg off.toNat) 0#32) } ∧
      StoresWord (.devwrReg off v) s b .reg off.toNat v) ∧
    (∀ a v : Word, a.toNat ≤ 0x1D →
      exec (.read a) s = .next { s with response := some (okResponse (b.word .reg a.toNat) 0#32) } ∧
      StoresWord (.write a v) s b .reg a.toNat v) ∧
    (∀ i t, exec i s = .next t → isConfig i = false → (∀ a v, i = .write a v → 0x1D < a.toNat) →
      (∀ off v, i ≠ .devwrReg off v) → ∃ b', t.block = .configured b' ∧ b'.reg = b.reg)

/-- The special registers' offsets, and that each is storage only: SETR and a WRITE to its address store the word and do
nothing else, and GETR returns it (10_state.md §2, 70_reset_and_hazards.md §2, 30_encoding.md §6; the offsets but PC's are
decision D6, log 19). -/
def Obligations.SpecialRegistersAreStorageOnly : Prop :=
  (specialOffset .pc = 0x10#32 ∧ specialOffset .mode = 0x11#32 ∧ specialOffset .sp = 0x12#32 ∧
    specialOffset .timer = 0x13#32 ∧ specialOffset .int0 = 0x14#32 ∧ specialOffset .int1 = 0x15#32 ∧
    specialOffset .snd0 = 0x16#32 ∧ specialOffset .snd1 = 0x17#32 ∧ specialOffset .snd2 = 0x18#32 ∧
    specialOffset .snd3 = 0x19#32 ∧ specialOffset .cmp = 0x1A#32 ∧ specialOffset .exit = 0x1B#32 ∧
    specialOffset .btsrc = 0x1C#32 ∧ specialOffset .btlen = 0x1D#32) ∧
  ∀ (s : State) (b : Bus) (r : SpecialReg) (v : Word), s.block = .configured b → b.Inv →
    StoresWord (setr r v) s b .reg (specialOffset r).toNat v ∧
    StoresWord (.write (specialOffset r) v) s b .reg (specialOffset r).toNat v ∧
    exec (getr r) s = .next { s with response := some (okResponse (b.special r) 0#32) }

/-- The program counter changes only by a WRITE to 0x10, a DEVWR.REG at index 0x10, or a CONFIG, which resets it
(10_state.md §2; that CONFIG counts is the model's reading, log 15). -/
def Obligations.ProgramCounterChangesOnlyByNamedWrites : Prop :=
  ∀ (s t : State) (b b' : Bus) (i : Instr),
    s.block = .configured b → b.Inv → exec i s = .next t → t.block = .configured b' →
    b'.special .pc ≠ b.special .pc →
    (∃ v, i = .write 0x10#32 v) ∨ (∃ v, i = .devwrReg 0x10#32 v) ∨ isConfig i = true

/-! ## Configuration and reset -/

/-- VIDEND answers `video_end`, which is `0x100 + VIDEO_SIZE - 1` in every block a run reaches (43_bus.md; decision D10 for
`VIDEO_SIZE = 0`). -/
def Obligations.VideoEndIsAnswered : Prop :=
  ∀ (s : State) (b : Bus), s.block = .configured b → b.Inv →
    exec .vidend s = .next { s with response := some (okResponse b.cfg.videoEnd 0#32) } ∧
    b.cfg.videoEnd.toNat + 1 = 0x100 + b.cfg.videoSize.toNat

/-- After a successful CONFIG every word of every device is zero and `cfg` holds the sizes and the video end (R35, R202). -/
def Obligations.SuccessfulConfigResetsEveryWord : Prop :=
  ∀ (s t : State) (r : Response) (ram vid : Word),
    exec (.config ram vid) s = .next t → t.response = some r → r.status = .ok →
    ∃ b, t.block = .configured b ∧ (∀ d off, b.word d off = 0#32) ∧
      b.cfg.ramSize = ram ∧ b.cfg.videoSize = vid ∧ b.cfg.videoEnd.toNat = 0x100 + vid.toNat - 1

/-- CONFIG succeeds exactly on the legal sizes, from any state of the block; the video check comes first, and a failing
CONFIG changes nothing (43_bus.md; decisions D8, D9, D10 and D18). -/
def Obligations.ConfigAcceptsExactlyTheLegalSizes : Prop :=
  ∀ (s : State) (ram vid : Word),
    (vid.toNat ≤ 0x00100000 → ram.toNat ≤ 0xFFEFFF00 →
      ∃ b, exec (.config ram vid) s = .next { s with block := .configured b, response := some (okResponse 0#32 0#32) } ∧
        b.cfg = ⟨ram, vid, vid + 0xFF#32⟩ ∧ ∀ d off, b.word d off = 0#32) ∧
    (0x00100000 < vid.toNat →
      exec (.config ram vid) s = .next { s with response := some { errorResponse .configVideo with eLen := some vid } }) ∧
    (vid.toNat ≤ 0x00100000 → 0xFFEFFF00 < ram.toNat →
      exec (.config ram vid) s = .next { s with response := some { errorResponse .configRam with eLen := some ram } })

/-- A failed CONFIG leaves an unconfigured block unconfigured, and every request but CONFIG then fails with NOT_CONFIGURED
and changes nothing (R183). -/
def Obligations.FailedConfigLeavesTheBlockUnusable : Prop :=
  ∀ s : State, s.block = .unconfigured →
    (∀ ram vid t r, exec (.config ram vid) s = .next t → t.response = some r → r.status ≠ .ok →
      (r.status = .configVideo ∨ r.status = .configRam) ∧ t.block = .unconfigured) ∧
    (∀ i, isConfig i = false → exec i s = .next { s with
      response := some ⟨.notConfigured, 0#32, 0#32, none, none, none, none, none⟩ })

/-- Only CONFIG configures the block or changes `cfg`, and no instruction touches the pending requests (10_state.md §1,
70_reset_and_hazards.md §1; decisions D10 and D11). -/
def Obligations.OnlyConfigChangesTheConfiguration : Prop :=
  ∀ (s t : State) (i : Instr), exec i s = .next t →
    t.requests = s.requests ∧
    (isConfig i = false →
      (s.block = .unconfigured → t.block = .unconfigured) ∧
      (∀ b, s.block = .configured b → ∃ b', t.block = .configured b' ∧ b'.cfg = b.cfg))

/-! ## The image port -/

/-- IMGSAVE answers the whole bank, ascending, each word as four bytes with the most significant first, and its length; a
failed store is IO_ERROR; the block does not change (44_image.md §2; decisions D3, D21, and general knowledge for the byte
order, log 13). -/
def Obligations.SaveAnswersTheBankBigEndian : Prop :=
  ∀ (s : State) (b : Bus), s.block = .configured b → b.Inv →
    exec (.imgsave .stored) s = .next { s with
      response := some { okResponse b.cfg.ramSize 0#32 with
        out := some ((List.range b.cfg.ramSize.toNat).flatMap fun j =>
        [(b.word .mem j).extractLsb' 24 8, (b.word .mem j).extractLsb' 16 8,
         (b.word .mem j).extractLsb' 8 8, (b.word .mem j).extractLsb' 0 8]) } } ∧
    exec (.imgsave .ioFail) s = .next { s with response := some (errorResponse .ioError) }

/-- IMGLOAD in all its cases: the host's reports, a length that is no multiple of 4, a stream that fits the bank, and one
that does not, which fails at the first word past the bank and leaves the words before it written (44_image.md §2;
decisions D3, D4, D5, D18 and D21). -/
def Obligations.LoadStoresTheStreamOrFails : Prop :=
  ∀ (s : State) (b : Bus) (bytes : List Byte), s.block = .configured b → b.Inv →
    exec (.imgload .notFound) s = .next { s with response := some (errorResponse .resourceNotFound) } ∧
    exec (.imgload .ioFail) s = .next { s with response := some (errorResponse .ioError) } ∧
    (bytes.length % 4 ≠ 0 → exec (.imgload (.bytes bytes)) s = .next { s with
      response := some { errorResponse .imageLength with
        eLen := if bytes.length < 2 ^ 32 then some (BitVec.ofNat 32 bytes.length) else none } }) ∧
    (bytes.length % 4 = 0 → bytes.length / 4 ≤ b.cfg.ramSize.toNat →
      ∃ b', exec (.imgload (.bytes bytes)) s = .next { s with
          block := .configured b', response := some (okResponse (BitVec.ofNat 32 (bytes.length / 4)) 0#32) } ∧
        OnlyBankChanged b b' ∧
        ∀ j, j < b.cfg.ramSize.toNat → b'.word .mem j =
          if j < bytes.length / 4 then
            bytes.getD (4 * j) 0#8 ++ bytes.getD (4 * j + 1) 0#8 ++ bytes.getD (4 * j + 2) 0#8 ++
              bytes.getD (4 * j + 3) 0#8
          else b.word .mem j) ∧
    (bytes.length % 4 = 0 → b.cfg.ramSize.toNat < bytes.length / 4 →
      ∃ b', exec (.imgload (.bytes bytes)) s = .next { s with
          block := .configured b'
          response := some { errorResponse .memBounds with
            eAddr := if b.cfg.ramSize = 0xFFEFFF00#32 then none else some (0x00100100#32 + b.cfg.ramSize)
            eOff := some b.cfg.ramSize, eLen := some b.cfg.ramSize, eIdx := some b.cfg.ramSize } } ∧
        OnlyBankChanged b b' ∧
        ∀ j, j < b.cfg.ramSize.toNat → b'.word .mem j =
          bytes.getD (4 * j) 0#8 ++ bytes.getD (4 * j + 1) 0#8 ++ bytes.getD (4 * j + 2) 0#8 ++
            bytes.getD (4 * j + 3) 0#8)

/-- A saved bank loaded into a block just configured with the same sizes is the bank again, and every other device there
stays zero (44_image.md §3, a rule the spec marks as derived; the span of an image is decision D3, log 17, and that CONFIG may
be issued again D8, log 14). -/
def Obligations.ImageRoundTripRestoresTheBank : Prop :=
  ∀ (s q : State) (b : Bus), s.block = .configured b → b.Inv →
    ∃ bytes t u b', exec (.imgsave .stored) s =
        .next { s with response := some { okResponse b.cfg.ramSize 0#32 with out := some bytes } } ∧
      bytes.length = 4 * b.cfg.ramSize.toNat ∧
      exec (.config b.cfg.ramSize b.cfg.videoSize) q = .next t ∧
      exec (.imgload (.bytes bytes)) t = .next u ∧
      u.response = some (okResponse b.cfg.ramSize 0#32) ∧ u.block = .configured b' ∧
      (∀ j, j < b.cfg.ramSize.toNat → b'.word .mem j = b.word .mem j) ∧
      (∀ d j, d ≠ .mem → b'.word d j = 0#32)

/-! ## Errors -/

/-- The numeric status codes and the source's error kind of each (60_exceptions.md §1; decision D18). -/
def Obligations.StatusCodesAreTheTables : Prop :=
  [Status.ok, .memBounds, .memOpcode, .memReserved, .notConfigured, .invalidCommand, .configVideo, .configRam,
    .imageLength, .ioError, .resourceNotFound].map (fun st => (st.code, st.kind)) =
    [(0#4, none), (1#4, some .memoryError), (2#4, some .memoryError), (3#4, some .memoryError),
      (4#4, some .invalidInput), (5#4, some .invalidInput), (6#4, some .invalidInput), (7#4, some .invalidInput),
      (8#4, some .invalidInput), (9#4, some .ioError), (10#4, some .resourceNotFound)]

/-- A request that ends in an error leaves every device word and `cfg` as they were; the one exception is an IMGLOAD that
runs past the bank, whose writes before the failing word stay (20_memory.md §2, 44_image.md §2; that those writes stay is
decision D5, log 18, and that word `j` of the stream is word `j` of the bank D3, log 17). -/
def Obligations.FailingRequestHasNoEffect : Prop :=
  ∀ (s t : State) (q : Request) (rest : List Request) (r : Response),
    s.Inv → s.requests = q :: rest → step s = .next t → t.response = some r → r.status ≠ .ok →
    (¬ (r.status = .memBounds ∧ ∃ bytes, decode q = .ok (.imgload (.bytes bytes))) → t.block = s.block) ∧
    (∀ bytes b, r.status = .memBounds → decode q = .ok (.imgload (.bytes bytes)) → s.block = .configured b →
      ∃ b', t.block = .configured b' ∧ OnlyBankChanged b b' ∧
        ∀ j, j < b.cfg.ramSize.toNat → (imageWords bytes)[j]? = some (b'.word .mem j))

/-- Each error is raised by the operations the table lists for it and by no other (60_exceptions.md §1; decision D18). -/
def Obligations.OnlyListedOperationsRaiseEachError : Prop :=
  ∀ (s t : State) (i : Instr) (r : Response), s.Inv → exec i s = .next t → t.response = some r →
    r.status ≠ .invalidCommand ∧
    (r.status = .memOpcode ∨ r.status = .memReserved → (∃ a, i = .read a) ∨ ∃ a v, i = .write a v) ∧
    (r.status = .memBounds → (∃ a, i = .read a) ∨ (∃ a v, i = .write a v) ∨ (∃ d off, i = devrd d off) ∨
      (∃ d off v, i = devwr d off v) ∨ ∃ bytes, i = .imgload (.bytes bytes)) ∧
    (r.status = .notConfigured ↔ s.block = .unconfigured ∧ isConfig i = false) ∧
    (r.status = .configVideo ∨ r.status = .configRam → isConfig i = true) ∧
    (r.status = .imageLength → ∃ bytes, i = .imgload (.bytes bytes)) ∧
    (r.status = .ioError → i = .imgload .ioFail ∨ i = .imgsave .ioFail) ∧
    (r.status = .resourceNotFound → i = .imgload .notFound)

/-- Which information fields each error carries, with their values, and that every other field is absent (60_exceptions.md
§1; decision D18). An IMGLOAD fails at the first word past the bank, so its offset and index are `RAM_SIZE` (44_image.md §2,
decision D3). -/
def Obligations.ErrorsCarryExactlyTheirFields : Prop :=
  ∀ (s t : State) (i : Instr) (r : Response), s.Inv → exec i s = .next t → t.response = some r →
    (r.status = .memBounds → ∃ b, s.block = .configured b ∧
      ((∃ a d, (i = .read a ∨ ∃ v, i = .write a v) ∧ (classify a).1.device = some d ∧
          r.eAddr = some a ∧ r.eOff = some (BitVec.ofNat 32 (classify a).2) ∧
          r.eLen = some (BitVec.ofNat 32 (b.len d)) ∧ r.eIdx = none) ∨
        (∃ d off, (i = devrd d off ∨ ∃ v, i = devwr d off v) ∧
          r.eAddr = none ∧ r.eOff = some off ∧ r.eLen = some (BitVec.ofNat 32 (b.len d)) ∧ r.eIdx = none) ∨
        (∃ bytes, i = .imgload (.bytes bytes) ∧
          r.eAddr = (if 0x00100100 + b.cfg.ramSize.toNat < 2 ^ 32
            then some (BitVec.ofNat 32 (0x00100100 + b.cfg.ramSize.toNat)) else none) ∧
          r.eOff = some b.cfg.ramSize ∧ r.eLen = some b.cfg.ramSize ∧ r.eIdx = some b.cfg.ramSize))) ∧
    (r.status = .memOpcode ∨ r.status = .memReserved →
      ((∃ a, i = .read a ∧ r.eAddr = some a) ∨ ∃ a v, i = .write a v ∧ r.eAddr = some a) ∧
      r.eOff = none ∧ r.eLen = none ∧ r.eIdx = none) ∧
    (∀ ram vid, i = .config ram vid → r.status = .configVideo →
      r.eLen = some vid ∧ r.eAddr = none ∧ r.eOff = none ∧ r.eIdx = none) ∧
    (∀ ram vid, i = .config ram vid → r.status = .configRam →
      r.eLen = some ram ∧ r.eAddr = none ∧ r.eOff = none ∧ r.eIdx = none) ∧
    (∀ bytes, i = .imgload (.bytes bytes) → r.status = .imageLength →
      r.eLen = (if bytes.length < 2 ^ 32 then some (BitVec.ofNat 32 bytes.length) else none) ∧
      r.eAddr = none ∧ r.eOff = none ∧ r.eIdx = none) ∧
    (r.status = .notConfigured ∨ r.status = .ioError ∨ r.status = .resourceNotFound →
      r.eAddr = none ∧ r.eOff = none ∧ r.eLen = none ∧ r.eIdx = none)

/-! ## Whole-machine rules -/

/-- CLASSIFY, READ, DEVRD, DEVLEN, VIDEND and IMGSAVE change no state of the block, and doing one again gives the same
response (20_memory.md §2, a rule the spec marks as derived). -/
def Obligations.ReadingOperationsArePure : Prop :=
  ∀ (s : State) (a : Word) (dst : SaveReport) (i : Instr),
    i ∈ [Instr.classify a, .read a, .devrdReg a, .devrdMem a, .devrdIo a, .devrdVid a, .devlenReg, .devlenMem,
      .devlenIo, .devlenVid, .vidend, .imgsave dst] →
    ∃ r, exec i s = .next { s with response := some r } ∧
      exec i { s with response := some r } = .next { s with response := some r }

/-- What every instruction but CONFIG does to every word of a configured block: the word it writes, if it writes that word,
and otherwise nothing; `cfg` and the pending requests stay (10_state.md §4, 20_memory.md §4; some of these rules the spec
marks as derived, and the words a failing IMGLOAD keeps are decision D5). -/
def Obligations.EveryInstructionsEffectOnEveryWord : Prop :=
  ∀ (s : State) (b : Bus) (i : Instr), s.block = .configured b → b.Inv → isConfig i = false →
    ∃ b' r, exec i s = .next { s with block := .configured b', response := some r } ∧ b'.cfg = b.cfg ∧
      ∀ d off, b'.word d off = (wordWritten b d off i).getD (b.word d off)

/-- Sequential consistency: after a successful CONFIG and any instructions that are no CONFIG, every device word is the last
value written to it, or zero if none was, and READ and DEVRD return it (20_memory.md §5; which words an IMGLOAD writes, and
that a failing one keeps them, are decisions D3 and D5, log 17 and log 18). -/
def Obligations.EveryWordHoldsItsLastWrite : Prop :=
  ∀ (s s1 : State) (r1 : Response) (ram vid : Word) (is : List Instr),
    exec (.config ram vid) s = .next s1 → s1.response = some r1 → r1.status = .ok →
    (∀ i ∈ is, isConfig i = false) →
    ∃ t b, runInstrs is s1 = .next t ∧ t.block = .configured b ∧ b.cfg.ramSize = ram ∧ b.cfg.videoSize = vid ∧
      (∀ d (off : Word), off.toNat < b.len d →
        exec (devrd d off) t =
          .next { t with response := some (okResponse (lastWritten b d off.toNat is 0#32) 0#32) }) ∧
      (∀ d (a : Word), (classify a).1.device = some d → (classify a).2 < b.len d →
        exec (.read a) t =
          .next { t with response := some (okResponse (lastWritten b d (classify a).2 is 0#32) 0#32) })

/-- Power-on is the unconfigured block, and it meets the invariant (70_reset_and_hazards.md §1; decision D11). -/
def Obligations.PowerOnMeetsTheInvariant : Prop :=
  State.reset.block = .unconfigured ∧ State.reset.Inv

/-- Every step keeps the invariant: both sparse memories canonical and inside their lengths, legal sizes, an exact video
end (10_state.md §1, 00_scope.md §3). -/
def Obligations.EveryStepKeepsTheInvariant : Prop :=
  ∀ s t : State, s.Inv → step s = .next t → t.Inv
end

