-- ==== Sys2Proof/Laws/Decode.lean ====
section
/-! SUPPORT. The fields of an assembled request word. -/

namespace Sys2Proof

@[simp] theorem requestCmd_append (c : Byte) (a d : Word) : requestCmd (c ++ a ++ d) = c := by
  unfold requestCmd
  ext i hi
  simp only [BitVec.getElem_extractLsb', BitVec.getLsbD_append]
  rw [if_neg (by omega), if_neg (by omega)]
  have : 64 + i - 32 - 32 = i := by omega
  rw [this, BitVec.getLsbD_eq_getElem hi]

@[simp] theorem requestA_append (c : Byte) (a d : Word) : requestA (c ++ a ++ d) = a := by
  unfold requestA
  ext i hi
  simp only [BitVec.getElem_extractLsb', BitVec.getLsbD_append]
  rw [if_neg (by omega), if_pos (by omega)]
  have : 32 + i - 32 = i := by omega
  rw [this, BitVec.getLsbD_eq_getElem hi]

@[simp] theorem requestD_append (c : Byte) (a d : Word) : requestD (c ++ a ++ d) = d := by
  unfold requestD
  ext i hi
  simp only [BitVec.getElem_extractLsb', BitVec.getLsbD_append]
  rw [if_pos (by omega)]
  have : 0 + i = i := by omega
  rw [this, BitVec.getLsbD_eq_getElem hi]

/-- The four bytes of a word, the most significant first, joined again. -/
theorem joinBytes_splitBytes (w : Word) :
    (w.extractLsb' 24 8 ++ w.extractLsb' 16 8 ++ w.extractLsb' 8 8 ++ w.extractLsb' 0 8 : BitVec 32) = w := by
  ext i hi
  simp only [BitVec.getElem_append, BitVec.getElem_extractLsb']
  split
  · rw [Nat.zero_add, BitVec.getLsbD_eq_getElem hi]
  · split
    · have : 8 + (i - 8) = i := by omega
      rw [this, BitVec.getLsbD_eq_getElem hi]
    · split
      · have : 16 + (i - 8 - 8) = i := by omega
        rw [this, BitVec.getLsbD_eq_getElem hi]
      · have : 24 + (i - 8 - 8 - 8) = i := by omega
        rw [this, BitVec.getLsbD_eq_getElem hi]

end Sys2Proof
end

