-- ==== Sys2Proof/Laws/Memory.lean ====
section
/-! SUPPORT. The sparse memory: read after write, and that a write keeps the canonical form. -/

namespace Sys2Proof.Machine

namespace Memory

theorem read_nil (i : Nat) : Memory.read [] i = unwritten := rfl

theorem read_cons (k : Nat) (x : Word) (m : Memory) (i : Nat) :
    Memory.read ((k, x) :: m) i = if k = i then x else Memory.read m i := rfl

/-- An index with no cell reads as unwritten. -/
theorem read_eq_unwritten (m : Memory) (i : Nat) (h : ∀ c ∈ m, c.1 ≠ i) : m.read i = unwritten := by
  induction m with
  | nil => rfl
  | cons c m ih =>
    rw [read_cons, if_neg (h c List.mem_cons_self)]
    exact ih fun c' hc' => h c' (List.mem_cons_of_mem _ hc')

theorem read_cell_append (i : Nat) (v : Word) (m : Memory) (j : Nat) (h : ∀ c ∈ m, i < c.1) :
    Memory.read (Memory.cell i v ++ m) j = if i = j then v else m.read j := by
  by_cases hv : v = unwritten
  · subst hv
    rw [cell, if_pos rfl, List.nil_append]
    split
    · next hij => subst hij; exact read_eq_unwritten m i fun c hc => by have := h c hc; omega
    · rfl
  · rw [cell, if_neg hv]; rfl

theorem wf_nil : Memory.wf [] := ⟨List.Pairwise.nil, by simp⟩

theorem wf_tail {c : Cell} {m : Memory} (h : Memory.wf (c :: m)) : Memory.wf m :=
  ⟨(List.pairwise_cons.mp h.1).2, fun c' hc' => h.2 c' (by simp [hc'])⟩

theorem head_lt {c : Cell} {m : Memory} (h : Memory.wf (c :: m)) : ∀ c' ∈ m, c.1 < c'.1 :=
  (List.pairwise_cons.mp h.1).1

/-- A write gives the word at its index and leaves every other word. -/
theorem read_write (m : Memory) (h : m.wf) (i : Nat) (v : Word) (j : Nat) :
    (m.write i v).read j = if i = j then v else m.read j := by
  induction m with
  | nil => simpa [Memory.write] using read_cell_append i v [] j (by simp)
  | cons c m ih =>
    obtain ⟨k, x⟩ := c
    have hlt := head_lt h
    simp only [Memory.write]
    split
    · next hik =>
      refine read_cell_append i v _ j fun c hc => ?_
      rcases List.mem_cons.mp hc with rfl | hc
      · exact hik
      · exact Nat.lt_trans hik (hlt c hc)
    · split
      · next hik =>
        subst hik
        rw [read_cell_append i v m j hlt, read_cons]
        split <;> simp_all
      · next hki hik =>
        rw [read_cons, read_cons, ih (wf_tail h)]
        split
        · next hkj => rw [if_neg (by omega)]
        · rfl

theorem read_write_self (m : Memory) (h : m.wf) (i : Nat) (v : Word) : (m.write i v).read i = v := by
  rw [read_write m h, if_pos rfl]

theorem read_write_of_ne (m : Memory) (h : m.wf) (i : Nat) (v : Word) (j : Nat) (hij : i ≠ j) :
    (m.write i v).read j = m.read j := by
  rw [read_write m h, if_neg hij]

theorem mem_cell {i : Nat} {v : Word} {c : Cell} (h : c ∈ Memory.cell i v) : c = (i, v) ∧ v ≠ unwritten := by
  unfold Memory.cell at h
  split at h
  · simp at h
  · next hv => exact ⟨by simpa using h, hv⟩

/-- A cell of a written memory is an old one or the one written. -/
theorem mem_write {m : Memory} {i : Nat} {v : Word} {c : Cell} (h : c ∈ m.write i v) :
    c ∈ m ∨ (c = (i, v) ∧ v ≠ unwritten) := by
  induction m with
  | nil => exact .inr (mem_cell h)
  | cons c' m ih =>
    obtain ⟨k, x⟩ := c'
    simp only [Memory.write] at h
    split at h
    · rcases List.mem_append.mp h with h | h
      · exact .inr (mem_cell h)
      · exact .inl h
    · split at h
      · rcases List.mem_append.mp h with h | h
        · exact .inr (mem_cell h)
        · exact .inl (by simp [h])
      · rcases List.mem_cons.mp h with rfl | h
        · exact .inl (by simp)
        · rcases ih h with h | h
          · exact .inl (by simp [h])
          · exact .inr h

theorem wf_cell_append {i : Nat} {v : Word} {m : Memory} (h : m.wf) (hlt : ∀ c ∈ m, i < c.1) :
    Memory.wf (Memory.cell i v ++ m) := by
  unfold Memory.cell
  split
  · simpa using h
  · next hv =>
    refine ⟨List.pairwise_cons.mpr ⟨hlt, h.1⟩, fun c hc => ?_⟩
    rcases List.mem_cons.mp hc with rfl | hc
    · exact hv
    · exact h.2 c hc

/-- A write keeps the canonical form. -/
theorem write_wf (m : Memory) (h : m.wf) (i : Nat) (v : Word) : (m.write i v).wf := by
  induction m with
  | nil => simpa [Memory.write] using wf_cell_append (i := i) (v := v) wf_nil (by simp)
  | cons c m ih =>
    obtain ⟨k, x⟩ := c
    have hlt := head_lt h
    simp only [Memory.write]
    split
    · next hik =>
      refine wf_cell_append h fun c hc => ?_
      rcases List.mem_cons.mp hc with rfl | hc
      · exact hik
      · exact Nat.lt_trans hik (hlt c hc)
    · split
      · next hik => subst hik; exact wf_cell_append (wf_tail h) hlt
      · next hki hik =>
        have ih := ih (wf_tail h)
        refine ⟨List.pairwise_cons.mpr ⟨fun c hc => ?_, ih.1⟩, fun c hc => ?_⟩
        · rcases mem_write hc with hc | ⟨rfl, -⟩
          · exact hlt c hc
          · simp only; omega
        · rcases List.mem_cons.mp hc with rfl | hc
          · exact h.2 _ (by simp)
          · exact ih.2 c hc

/-- A write below a bound keeps every cell below it. -/
theorem write_inside (m : Memory) (n i : Nat) (v : Word) (h : ∀ c ∈ m, c.1 < n) (hi : i < n) :
    ∀ c ∈ m.write i v, c.1 < n := by
  intro c hc
  rcases mem_write hc with hc | ⟨rfl, -⟩
  · exact h c hc
  · exact hi

end Memory

end Sys2Proof.Machine
end

