-- ==== Sys2Proof/Laws/State.lean ====
section
/-! SUPPORT. One lemma per field and update of the state, the bus and the responses. -/

namespace Sys2Proof.Machine

/-! ## The machine's updates -/

@[simp] theorem State.reply_block (s : State) (r : Response) : (s.reply r).block = s.block := rfl
@[simp] theorem State.reply_requests (s : State) (r : Response) : (s.reply r).requests = s.requests := rfl
@[simp] theorem State.reply_response (s : State) (r : Response) : (s.reply r).response = some r := rfl
@[simp] theorem State.commit_block (s : State) (b : Bus) (r : Response) : (s.commit b r).block = .configured b := rfl
@[simp] theorem State.commit_requests (s : State) (b : Bus) (r : Response) : (s.commit b r).requests = s.requests := rfl
@[simp] theorem State.commit_response (s : State) (b : Bus) (r : Response) : (s.commit b r).response = some r := rfl
@[simp] theorem State.issue_block (s : State) (r : Request) : (s.issue r).block = s.block := rfl
@[simp] theorem State.issue_requests (s : State) (r : Request) : (s.issue r).requests = r :: s.requests := rfl
@[simp] theorem State.issue_response (s : State) (r : Request) : (s.issue r).response = s.response := rfl
@[simp] theorem State.raise_eq (s : State) (e : Response) : s.raise e = .next (s.reply e) := rfl
@[simp] theorem State.rejectCommand_eq (s : State) :
    s.rejectCommand = .next (s.reply (errorResponse .invalidCommand)) := rfl
@[simp] theorem State.idle_eq (s : State) : s.idle = .next s := rfl
@[simp] theorem State.reset_block : State.reset.block = .unconfigured := rfl
@[simp] theorem State.reset_requests : State.reset.requests = [] := rfl
@[simp] theorem State.reset_response : State.reset.response = none := rfl

/-! ## Writing one device word -/

@[simp] theorem Bus.setWord_cfg (b : Bus) (d : Device) (i : Nat) (v : Word) : (b.setWord d i v).cfg = b.cfg := by
  cases d <;> rfl

@[simp] theorem Bus.setWord_reg_reg (b : Bus) (i : Nat) (v : Word) :
    (b.setWord .reg i v).reg = b.reg.setIfInBounds i v := rfl
@[simp] theorem Bus.setWord_reg_mem (b : Bus) (i : Nat) (v : Word) : (b.setWord .reg i v).mem = b.mem := rfl
@[simp] theorem Bus.setWord_reg_io (b : Bus) (i : Nat) (v : Word) : (b.setWord .reg i v).io = b.io := rfl
@[simp] theorem Bus.setWord_reg_vid (b : Bus) (i : Nat) (v : Word) : (b.setWord .reg i v).vid = b.vid := rfl
@[simp] theorem Bus.setWord_mem_reg (b : Bus) (i : Nat) (v : Word) : (b.setWord .mem i v).reg = b.reg := rfl
@[simp] theorem Bus.setWord_mem_mem (b : Bus) (i : Nat) (v : Word) : (b.setWord .mem i v).mem = b.mem.write i v := rfl
@[simp] theorem Bus.setWord_mem_io (b : Bus) (i : Nat) (v : Word) : (b.setWord .mem i v).io = b.io := rfl
@[simp] theorem Bus.setWord_mem_vid (b : Bus) (i : Nat) (v : Word) : (b.setWord .mem i v).vid = b.vid := rfl
@[simp] theorem Bus.setWord_io_reg (b : Bus) (i : Nat) (v : Word) : (b.setWord .io i v).reg = b.reg := rfl
@[simp] theorem Bus.setWord_io_mem (b : Bus) (i : Nat) (v : Word) : (b.setWord .io i v).mem = b.mem := rfl
@[simp] theorem Bus.setWord_io_io (b : Bus) (i : Nat) (v : Word) :
    (b.setWord .io i v).io = b.io.setIfInBounds i v := rfl
@[simp] theorem Bus.setWord_io_vid (b : Bus) (i : Nat) (v : Word) : (b.setWord .io i v).vid = b.vid := rfl
@[simp] theorem Bus.setWord_vid_reg (b : Bus) (i : Nat) (v : Word) : (b.setWord .vid i v).reg = b.reg := rfl
@[simp] theorem Bus.setWord_vid_mem (b : Bus) (i : Nat) (v : Word) : (b.setWord .vid i v).mem = b.mem := rfl
@[simp] theorem Bus.setWord_vid_io (b : Bus) (i : Nat) (v : Word) : (b.setWord .vid i v).io = b.io := rfl
@[simp] theorem Bus.setWord_vid_vid (b : Bus) (i : Nat) (v : Word) : (b.setWord .vid i v).vid = b.vid.write i v := rfl

@[simp] theorem Bus.len_reg (b : Bus) : b.len .reg = 32 := rfl
@[simp] theorem Bus.len_io (b : Bus) : b.len .io = 144 := rfl
@[simp] theorem Bus.len_mem (b : Bus) : b.len .mem = b.cfg.ramSize.toNat := rfl
@[simp] theorem Bus.len_vid (b : Bus) : b.len .vid = b.cfg.videoSize.toNat := rfl

@[simp] theorem Bus.setWord_len (b : Bus) (d : Device) (i : Nat) (v : Word) (d' : Device) :
    (b.setWord d i v).len d' = b.len d' := by
  cases d' <;> simp

/-! ## A fresh block -/

@[simp] theorem Bus.fresh_ramSize (ram vid : Word) : (Bus.fresh ram vid).cfg.ramSize = ram := rfl
@[simp] theorem Bus.fresh_videoSize (ram vid : Word) : (Bus.fresh ram vid).cfg.videoSize = vid := rfl
@[simp] theorem Bus.fresh_mem (ram vid : Word) : (Bus.fresh ram vid).mem = [] := rfl
@[simp] theorem Bus.fresh_vid (ram vid : Word) : (Bus.fresh ram vid).vid = [] := rfl

/-! ## Responses -/

@[simp] theorem okResponse_status (r0 r1 : Word) : (okResponse r0 r1).status = .ok := rfl
@[simp] theorem okResponse_r0 (r0 r1 : Word) : (okResponse r0 r1).r0 = r0 := rfl
@[simp] theorem okResponse_r1 (r0 r1 : Word) : (okResponse r0 r1).r1 = r1 := rfl
@[simp] theorem errorResponse_status (st : Status) : (errorResponse st).status = st := rfl
@[simp] theorem boundsError_status (off len : Nat) : (boundsError off len).status = .memBounds := rfl
@[simp] theorem boundsError_eOff (off len : Nat) : (boundsError off len).eOff = fit32 off := rfl
@[simp] theorem boundsError_eLen (off len : Nat) : (boundsError off len).eLen = fit32 len := rfl

end Sys2Proof.Machine
end

