-- ==== Sys2Proof/Laws/Ops.lean ====
section
/-! SUPPORT. What each shared operation can do, once each: the decoder of addresses, the device contract, the bus, and the
frames of a query and an update. -/

namespace Sys2Proof.Machine

/-! ## Values of a 32-bit field -/

theorem fit32_of_lt {n : Nat} (h : n < 2 ^ 32) : fit32 n = some (BitVec.ofNat 32 n) := if_pos h

@[simp] theorem fit32_toNat (a : Word) : fit32 a.toNat = some a := by
  rw [fit32_of_lt a.isLt, BitVec.ofNat_toNat, BitVec.setWidth_eq]

/-! ## The address decoder -/

/-- `Classify` by the ranges of the address map (20_memory.md R51). -/
theorem classify_cases (a : Word) :
    (a.toNat ≤ 0x1D ∧ classify a = (.register, a.toNat)) ∨
    (0x1E ≤ a.toNat ∧ a.toNat ≤ 0x1F ∧ classify a = (.reserved, 0)) ∨
    (0x20 ≤ a.toNat ∧ a.toNat ≤ 0x54 ∧ classify a = (.opcode, 0)) ∨
    (0x55 ≤ a.toNat ∧ a.toNat ≤ 0x6F ∧ classify a = (.reserved, 0)) ∨
    (0x70 ≤ a.toNat ∧ a.toNat ≤ 0xFF ∧ classify a = (.io, a.toNat - 0x70)) ∨
    (0x100 ≤ a.toNat ∧ a.toNat ≤ 0x1000FF ∧ classify a = (.video, a.toNat - 0x100)) ∨
    (0x100100 ≤ a.toNat ∧ classify a = (.main, a.toNat - 0x100100)) := by
  simp only [classify, Config.regLast, Config.regBase, Config.opcodeLast, Config.ioLast, Config.ioBase,
    Config.videoMaxEnd, Config.videoBase, Config.memBase]
  by_cases h1 : a.toNat ≤ 0x1D
  · exact .inl ⟨h1, by rw [if_pos h1]; rfl⟩
  by_cases h2 : a.toNat ≤ 0x1F
  · exact .inr (.inl ⟨by omega, h2, by rw [if_neg h1, if_pos h2]⟩)
  by_cases h3 : a.toNat ≤ 0x54
  · exact .inr (.inr (.inl ⟨by omega, h3, by rw [if_neg h1, if_neg h2, if_pos h3]⟩))
  by_cases h4 : a.toNat ≤ 0x6F
  · exact .inr (.inr (.inr (.inl ⟨by omega, h4, by rw [if_neg h1, if_neg h2, if_neg h3, if_pos h4]⟩)))
  by_cases h5 : a.toNat ≤ 0xFF
  · exact .inr (.inr (.inr (.inr (.inl
      ⟨by omega, h5, by rw [if_neg h1, if_neg h2, if_neg h3, if_neg h4, if_pos h5]⟩))))
  by_cases h6 : a.toNat ≤ 0x1000FF
  · exact .inr (.inr (.inr (.inr (.inr (.inl
      ⟨by omega, h6, by rw [if_neg h1, if_neg h2, if_neg h3, if_neg h4, if_neg h5, if_pos h6]⟩)))))
  · exact .inr (.inr (.inr (.inr (.inr (.inr
      ⟨by omega, by rw [if_neg h1, if_neg h2, if_neg h3, if_neg h4, if_neg h5, if_neg h6]⟩)))))

/-- An image address is a Main address with the image index as its offset, for every word of a legal bank
(44_image.md R161; 20_memory.md R60). -/
theorem classify_imageAddress {i : Nat} (h : i < 0xFFEFFF00) : classify (imageAddress i) = (.main, i) := by
  have hn : (imageAddress i).toNat = 0x100100 + i := by
    simp only [imageAddress, Config.memBase, BitVec.toNat_ofNat]
    omega
  obtain h | h | h | h | h | h | ⟨-, h⟩ := classify_cases (imageAddress i)
  · omega
  · omega
  · omega
  · omega
  · omega
  · omega
  · rw [h, hn, Nat.add_sub_cancel_left]

/-! ## The device contract -/

theorem Bus.word_setWord_self (b : Bus) (hb : b.Inv) (d : Device) (i : Nat) (v : Word) (hi : i < b.len d) :
    (b.setWord d i v).word d i = v := by
  cases d with
  | reg => simp only [Bus.len_reg] at hi; simp [Bus.word, hi]
  | mem => exact Memory.read_write_self _ hb.memWf i v
  | io => simp only [Bus.len_io] at hi; simp [Bus.word, hi]
  | vid => exact Memory.read_write_self _ hb.vidWf i v

theorem Bus.word_setWord_of_ne (b : Bus) (hb : b.Inv) (d d' : Device) (i j : Nat) (v : Word)
    (h : d ≠ d' ∨ i ≠ j) : (b.setWord d i v).word d' j = b.word d' j := by
  cases d <;> cases d' <;> first
    | rfl
    | (have hij : i ≠ j := by simpa using h
       first
        | exact Memory.read_write_of_ne _ hb.memWf i v j hij
        | exact Memory.read_write_of_ne _ hb.vidWf i v j hij
        | simp [Bus.word, hij])

/-- Writing a word inside a device keeps the invariant. -/
theorem Bus.setWord_inv (b : Bus) (hb : b.Inv) (d : Device) (i : Nat) (v : Word) (hi : i < b.len d) :
    (b.setWord d i v).Inv := by
  obtain ⟨h1, h2, h3, h4, h5, h6, h7⟩ := hb
  cases d with
  | reg => exact ⟨h1, h2, h3, h4, h5, h6, h7⟩
  | mem => exact ⟨Memory.write_wf _ h1 i v, h2, Memory.write_inside _ _ i v h3 hi, h4, h5, h6, h7⟩
  | io => exact ⟨h1, h2, h3, h4, h5, h6, h7⟩
  | vid => exact ⟨h1, Memory.write_wf _ h2 i v, h3, Memory.write_inside _ _ i v h4 hi, h5, h6, h7⟩

theorem devRead_of_lt (b : Bus) (d : Device) (off : Nat) (h : off < b.len d) : devRead b d off = .ok (b.word d off) :=
  if_neg (by omega)

theorem devRead_of_le (b : Bus) (d : Device) (off : Nat) (h : b.len d ≤ off) :
    devRead b d off = .error (boundsError off (b.len d)) := if_pos h

theorem devWrite_of_lt (b : Bus) (d : Device) (off : Nat) (v : Word) (h : off < b.len d) :
    devWrite b d off v = .ok (b.setWord d off v) := if_neg (by omega)

theorem devWrite_of_le (b : Bus) (d : Device) (off : Nat) (v : Word) (h : b.len d ≤ off) :
    devWrite b d off v = .error (boundsError off (b.len d)) := if_pos h

/-- All a device write can do. -/
theorem devWrite_ok {b : Bus} {d : Device} {off : Nat} {v : Word} {b' : Bus} (h : devWrite b d off v = .ok b') :
    off < b.len d ∧ b' = b.setWord d off v := by
  unfold devWrite at h
  split at h
  · simp at h
  · next hlt => exact ⟨by omega, by simpa using h.symm⟩

/-! ## The bus -/

/-- A bus read of a mapped address is its device's read, with the address added to an error (42_devices.md R123). -/
theorem busRead_mapped (b : Bus) (a : Word) {d : Device} (h : (classify a).1.device = some d) :
    busRead b a = withAddress a (devRead b d (classify a).2) := by
  unfold busRead
  rcases hc : classify a with ⟨k, off⟩
  rw [hc] at h
  cases k <;> simp_all [Kind.device]

/-- A bus write of a mapped address is its device's write, with the address added to an error (42_devices.md R123). -/
theorem busWrite_mapped (b : Bus) (a v : Word) {d : Device} (h : (classify a).1.device = some d) :
    busWrite b a v = withAddress a (devWrite b d (classify a).2 v) := by
  unfold busWrite
  rcases hc : classify a with ⟨k, off⟩
  rw [hc] at h
  cases k <;> simp_all [Kind.device]

theorem busRead_opcode (b : Bus) (a : Word) (h : (classify a).1 = .opcode) : busRead b a = .error (opcodeError a) := by
  unfold busRead
  rcases hc : classify a with ⟨k, off⟩
  rw [hc] at h
  simp_all

theorem busRead_reserved (b : Bus) (a : Word) (h : (classify a).1 = .reserved) :
    busRead b a = .error (reservedError a) := by
  unfold busRead
  rcases hc : classify a with ⟨k, off⟩
  rw [hc] at h
  simp_all

theorem busWrite_opcode (b : Bus) (a v : Word) (h : (classify a).1 = .opcode) :
    busWrite b a v = .error (opcodeError a) := by
  unfold busWrite
  rcases hc : classify a with ⟨k, off⟩
  rw [hc] at h
  simp_all

theorem busWrite_reserved (b : Bus) (a v : Word) (h : (classify a).1 = .reserved) :
    busWrite b a v = .error (reservedError a) := by
  unfold busWrite
  rcases hc : classify a with ⟨k, off⟩
  rw [hc] at h
  simp_all

/-- All a bus write can do: the one word its address names, of the device its kind names. -/
theorem busWrite_ok {b : Bus} {a v : Word} {b' : Bus} (h : busWrite b a v = .ok b') :
    ∃ d, (classify a).1.device = some d ∧ (classify a).2 < b.len d ∧ b' = b.setWord d (classify a).2 v := by
  rcases hd : (classify a).1.device with _ | d
  · unfold busWrite at h
    rcases hc : classify a with ⟨k, off⟩
    rw [hc] at h hd
    cases k <;> simp_all [Kind.device]
  · rw [busWrite_mapped b a v hd] at h
    rcases hw : devWrite b d (classify a).2 v with e | b''
    · simp [hw, withAddress] at h
    · obtain ⟨hlt, rfl⟩ := devWrite_ok hw
      exact ⟨d, rfl, hlt, by simpa [hw, withAddress] using h.symm⟩

/-- All CONFIG's checks can do (43_bus.md R141). -/
theorem configure_cases (ram vid : Word) :
    (0x100000 < vid.toNat ∧ configure ram vid = .error (configVideoError vid)) ∨
    (vid.toNat ≤ 0x100000 ∧ 0xFFEFFF00 < ram.toNat ∧ configure ram vid = .error (configRamError ram)) ∨
    (vid.toNat ≤ 0x100000 ∧ ram.toNat ≤ 0xFFEFFF00 ∧ configure ram vid = .ok (Bus.fresh ram vid)) := by
  simp only [configure, Config.videoMaxEnd, Config.videoBase, Config.ramSizeMax]
  by_cases h1 : 0x100000 < vid.toNat
  · exact .inl ⟨h1, by rw [if_pos (by omega)]⟩
  by_cases h2 : 0xFFEFFF00 < ram.toNat
  · exact .inr (.inl ⟨by omega, h2, by rw [if_neg (by omega), if_pos h2]⟩)
  · exact .inr (.inr ⟨by omega, by omega, by rw [if_neg (by omega), if_neg h2]⟩)

/-! ## Queries and updates -/

@[simp] theorem query_unconfigured (f : Bus → Except Response Response) (s : State) (h : s.block = .unconfigured) :
    query f s = .next (s.reply (errorResponse .notConfigured)) := by
  unfold query; rw [h]; rfl

@[simp] theorem update_unconfigured (f : Bus → Except Response Bus) (s : State) (h : s.block = .unconfigured) :
    update f s = .next (s.reply (errorResponse .notConfigured)) := by
  unfold update; rw [h]; rfl

theorem query_configured (f : Bus → Except Response Response) (s : State) (b : Bus) (h : s.block = .configured b) :
    query f s = match f b with
      | .error e => .next (s.reply e)
      | .ok r => .next (s.reply r) := by
  unfold query; rw [h]; rfl

theorem update_configured (f : Bus → Except Response Bus) (s : State) (b : Bus) (h : s.block = .configured b) :
    update f s = match f b with
      | .error e => .next (s.reply e)
      | .ok b' => .next (s.commit b' (okResponse 0#32 0#32)) := by
  unfold update; rw [h]; rfl

/-- All a query can do: give a response. -/
theorem query_reply (f : Bus → Except Response Response) (s : State) : ∃ r, query f s = .next (s.reply r) := by
  unfold query
  split
  · exact ⟨_, rfl⟩
  · split <;> exact ⟨_, rfl⟩

/-- A query's response is decided by the block alone. -/
theorem query_uniform (f : Bus → Except Response Response) (blk : Block) :
    ∃ r, ∀ s : State, s.block = blk → query f s = .next (s.reply r) := by
  cases blk with
  | unconfigured => exact ⟨_, fun s h => query_unconfigured f s h⟩
  | configured b =>
    rcases hf : f b with e | r
    · exact ⟨e, fun s h => by rw [query_configured f s b h, hf]⟩
    · exact ⟨r, fun s h => by rw [query_configured f s b h, hf]⟩

/-- All an update can do: answer an error and leave the block, or put the block in the new state and answer success. -/
theorem update_cases (f : Bus → Except Response Bus) (s : State) :
    (∃ e, update f s = .next (s.reply e)) ∨
    (∃ b b', s.block = .configured b ∧ f b = .ok b' ∧ update f s = .next (s.commit b' (okResponse 0#32 0#32))) := by
  unfold update
  split
  · exact .inl ⟨_, rfl⟩
  · next b hb =>
    split
    · exact .inl ⟨_, rfl⟩
    · next b' hf => exact .inr ⟨b, b', hb, hf, rfl⟩

end Sys2Proof.Machine
end

