-- ==== Sys2Proof/Laws/Exec.lean ====
section
/-! SUPPORT. Each instruction as a query or an update of the block, or as its own case split, so that no later proof unfolds a
meaning. -/

namespace Sys2Proof.Machine

theorem exec_classify (a : Word) (s : State) :
    exec (.classify a) s = query (fun _ => .ok (classifyResponse a)) s := rfl
theorem exec_read (a : Word) (s : State) :
    exec (.read a) s = query (fun b => wordResponse (busRead b a)) s := rfl
theorem exec_write (a v : Word) (s : State) :
    exec (.write a v) s = update (fun b => busWrite b a v) s := rfl
theorem exec_devrd (d : Device) (off : Word) (s : State) :
    exec (devrd d off) s = query (fun b => wordResponse (devRead b d off.toNat)) s := by cases d <;> rfl
theorem exec_devwr (d : Device) (off v : Word) (s : State) :
    exec (devwr d off v) s = update (fun b => devWrite b d off.toNat v) s := by cases d <;> rfl
theorem exec_devlenReg (s : State) :
    exec .devlenReg s = query (fun _ => .ok (okResponse 32#32 0#32)) s := rfl
theorem exec_devlenMem (s : State) :
    exec .devlenMem s = query (fun b => .ok (okResponse b.cfg.ramSize 0#32)) s := rfl
theorem exec_devlenIo (s : State) :
    exec .devlenIo s = query (fun _ => .ok (okResponse 144#32 0#32)) s := rfl
theorem exec_devlenVid (s : State) :
    exec .devlenVid s = query (fun b => .ok (okResponse b.cfg.videoSize 0#32)) s := rfl
theorem exec_vidend (s : State) :
    exec .vidend s = query (fun b => .ok (okResponse b.cfg.videoEnd 0#32)) s := rfl
theorem exec_imgsave (dst : SaveReport) (s : State) :
    exec (.imgsave dst) s = query (saveImage dst) s := rfl

/-- CONFIG in any state of the block. -/
theorem exec_config (ram vid : Word) (s : State) :
    exec (.config ram vid) s = match configure ram vid with
      | .error e => .next (s.reply e)
      | .ok b => .next (s.commit b (okResponse 0#32 0#32)) := rfl

/-- IMGLOAD of a stream on a configured block. -/
theorem exec_imgload_bytes (bytes : List Byte) (s : State) (b : Bus) (h : s.block = .configured b) :
    exec (.imgload (.bytes bytes)) s = .next (s.commit (loadImage b bytes).1 (loadImage b bytes).2) := by
  simp only [exec, execImgload, h]

/-- IMGLOAD of an absent stream on a configured block. -/
theorem exec_imgload_notFound (s : State) (b : Bus) (h : s.block = .configured b) :
    exec (.imgload .notFound) s = .next (s.reply (errorResponse .resourceNotFound)) := by
  simp only [exec, execImgload, h, State.raise_eq]

/-- IMGLOAD of a stream the host could not supply, on a configured block. -/
theorem exec_imgload_ioFail (s : State) (b : Bus) (h : s.block = .configured b) :
    exec (.imgload .ioFail) s = .next (s.reply (errorResponse .ioError)) := by
  simp only [exec, execImgload, h, State.raise_eq]

/-- IMGLOAD on an unconfigured block. -/
theorem exec_imgload_unconfigured (src : ImageSource) (s : State) (h : s.block = .unconfigured) :
    exec (.imgload src) s = .next (s.reply (errorResponse .notConfigured)) := by
  simp only [exec, execImgload, h, State.raise_eq]

end Sys2Proof.Machine
end

