-- ==== Sys2Proof/Laws/Image.lean ====
section
/-! SUPPORT. The image loops: what one pass of each does, and all that a whole loop can do. -/

namespace Sys2Proof.Machine

/-- One pass of IMGSAVE's loop: word `i` of the bank, then the rest (44_image.md R162). -/
theorem saveWords_succ (b : Bus) (hb : b.Inv) (i n : Nat) (hi : i < b.cfg.ramSize.toNat) :
    saveWords b i (n + 1) =
      match saveWords b (i + 1) n with
      | .error e => .error e
      | .ok out => .ok (be32 (b.word .mem i) ++ out) := by
  have hc : classify (imageAddress i) = (.main, i) :=
    classify_imageAddress (by have := hb.ramLegal; simp only [Config.ramSizeMax] at this; omega)
  have hr : busRead b (imageAddress i) = .ok (b.word .mem i) := by
    rw [busRead_mapped b _ (d := .mem) (by rw [hc]; rfl), hc, devRead_of_lt b .mem i hi]
    rfl
  rcases hs : saveWords b (i + 1) n with e | out <;> simp only [saveWords, hr, hs]

/-- All IMGSAVE's loop can do inside the bank: the words' bytes, ascending. -/
theorem saveWords_eq (b : Bus) (hb : b.Inv) (n : Nat) : ∀ i, i + n ≤ b.cfg.ramSize.toNat →
    saveWords b i n = .ok ((List.range' i n).flatMap fun j => be32 (b.word .mem j)) := by
  induction n with
  | zero => intro i _; rfl
  | succ n ih =>
    intro i hi
    rw [saveWords_succ b hb i n (by omega), ih (i + 1) (by omega)]
    rfl

/-- One pass of IMGLOAD's loop inside the bank (44_image.md R163). -/
theorem loadWords_cons_of_lt (b : Bus) (hb : b.Inv) (i : Nat) (w : Word) (ws : List Word)
    (hi : i < b.cfg.ramSize.toNat) : loadWords b i (w :: ws) = loadWords (b.setWord .mem i w) (i + 1) ws := by
  have hc : classify (imageAddress i) = (.main, i) :=
    classify_imageAddress (by have := hb.ramLegal; simp only [Config.ramSizeMax] at this; omega)
  have hw : busWrite b (imageAddress i) w = .ok (b.setWord .mem i w) := by
    rw [busWrite_mapped b _ w (d := .mem) (by rw [hc]; rfl), hc, devWrite_of_lt b .mem i w hi]
    rfl
  rw [loadWords, if_neg (by omega), hw]

/-- IMGLOAD's loop at the end of the bank (44_image.md R163). -/
theorem loadWords_cons_of_le (b : Bus) (i : Nat) (w : Word) (ws : List Word) (hi : b.cfg.ramSize.toNat ≤ i) :
    loadWords b i (w :: ws) = (b, some (imageBoundsError b i)) := by
  rw [loadWords, if_pos hi]

/-- The error that ends IMGLOAD's loop depends on `cfg` alone. -/
theorem imageBoundsError_congr {b b' : Bus} (h : b.cfg = b'.cfg) (i : Nat) :
    imageBoundsError b i = imageBoundsError b' i := by
  unfold imageBoundsError; rw [h]

/-- IMGLOAD's loop writes the memory bank alone. -/
theorem loadWords_frame (ws : List Word) : ∀ (b : Bus) (i : Nat), b.Inv →
    (loadWords b i ws).1.reg = b.reg ∧ (loadWords b i ws).1.io = b.io ∧ (loadWords b i ws).1.vid = b.vid ∧
      (loadWords b i ws).1.cfg = b.cfg ∧ (loadWords b i ws).1.Inv := by
  induction ws with
  | nil => intro b i hb; exact ⟨rfl, rfl, rfl, rfl, hb⟩
  | cons w ws ih =>
    intro b i hb
    rcases Nat.lt_or_ge i b.cfg.ramSize.toNat with hi | hi
    · rw [loadWords_cons_of_lt b hb i w ws hi]
      exact ih (b.setWord .mem i w) (i + 1) (b.setWord_inv hb .mem i w hi)
    · rw [loadWords_cons_of_le b i w ws hi]
      exact ⟨rfl, rfl, rfl, rfl, hb⟩

/-- How IMGLOAD's loop ends: without an error when the words fit the bank, else at the first word past it. -/
theorem loadWords_error (ws : List Word) : ∀ (b : Bus) (i : Nat), b.Inv → i ≤ b.cfg.ramSize.toNat →
    (loadWords b i ws).2 =
      if i + ws.length ≤ b.cfg.ramSize.toNat then none else some (imageBoundsError b b.cfg.ramSize.toNat) := by
  induction ws with
  | nil => intro b i _ hi; rw [if_pos (by simpa using hi)]; rfl
  | cons w ws ih =>
    intro b i hb hi
    rcases Nat.lt_or_ge i b.cfg.ramSize.toNat with hlt | hge
    · rw [loadWords_cons_of_lt b hb i w ws hlt, ih _ _ (b.setWord_inv hb .mem i w hlt) (by simpa using hlt)]
      simp only [Bus.setWord_cfg, List.length_cons, Nat.add_assoc, Nat.add_comm 1 ws.length]
      rw [imageBoundsError_congr (b.setWord_cfg .mem i w)]
    · rw [loadWords_cons_of_le b i w ws hge, if_neg (by simp only [List.length_cons]; omega)]
      rw [show i = b.cfg.ramSize.toNat by omega]

/-- The bank after IMGLOAD's loop: the words from `i` on, as far as they are inside the bank. -/
theorem loadWords_word (ws : List Word) : ∀ (b : Bus) (i : Nat), b.Inv → ∀ j,
    (loadWords b i ws).1.word .mem j =
      if i ≤ j ∧ j < b.cfg.ramSize.toNat then (ws[j - i]?).getD (b.word .mem j) else b.word .mem j := by
  induction ws with
  | nil => intro b i _ j; simp [loadWords]
  | cons w ws ih =>
    intro b i hb j
    rcases Nat.lt_or_ge i b.cfg.ramSize.toNat with hlt | hge
    · rw [loadWords_cons_of_lt b hb i w ws hlt, ih _ _ (b.setWord_inv hb .mem i w hlt) j]
      rcases Nat.lt_trichotomy i j with hij | hij | hij
      · rw [b.word_setWord_of_ne hb .mem .mem i j w (.inr (by omega))]
        have : j - i = (j - (i + 1)) + 1 := by omega
        simp only [Bus.setWord_cfg, this, List.getElem?_cons_succ]
        by_cases hj : j < b.cfg.ramSize.toNat
        · rw [if_pos ⟨by omega, hj⟩, if_pos ⟨by omega, hj⟩]
        · rw [if_neg (by omega), if_neg (by omega)]
      · subst hij
        rw [b.word_setWord_self hb .mem i w hlt, if_neg (by omega), if_pos ⟨le_refl i, hlt⟩]
        simp
      · rw [b.word_setWord_of_ne hb .mem .mem i j w (.inr (by omega)), if_neg (by omega), if_neg (by omega)]
    · rw [loadWords_cons_of_le b i w ws hge, if_neg (by omega)]

/-- The number of words of a stream of whole words. -/
theorem imageWords_length : ∀ bytes : List Byte, (imageWords bytes).length = bytes.length / 4
  | [] => rfl
  | [_] => by simp [imageWords]
  | [_, _] => by simp [imageWords]
  | [_, _, _] => by simp [imageWords]
  | _ :: _ :: _ :: _ :: rest => by
    simp only [imageWords, List.length_cons, imageWords_length rest]
    omega

end Sys2Proof.Machine
end

