-- ==== Sys2Proof/Laws/PerInstr.lean ====
section
/-! SUPPORT. One lemma per instruction: its command byte is well-formed and stands in bits 71:64 of its request. -/

namespace Sys2Proof.Laws.CommandByte

/-- An instruction's request has a well-formed command byte, the encoder's, in bits 71:64 (30_encoding.md R80, R82). -/
def Statement (i : Instr) : Prop :=
  commandWellFormed (encodeCmd i) = true ∧ requestCmd (encode i).word = encodeCmd i

theorem classify (a : Word) : Statement (.classify a) := ⟨by simp only [encodeCmd]; decide, requestCmd_append _ _ _⟩
theorem read (a : Word) : Statement (.read a) := ⟨by simp only [encodeCmd]; decide, requestCmd_append _ _ _⟩
theorem write (a : Word) (v : Word) : Statement (.write a v) := ⟨by simp only [encodeCmd]; decide, requestCmd_append _ _ _⟩
theorem devrdReg (off : Word) : Statement (.devrdReg off) := ⟨by simp only [encodeCmd]; decide, requestCmd_append _ _ _⟩
theorem devrdMem (off : Word) : Statement (.devrdMem off) := ⟨by simp only [encodeCmd]; decide, requestCmd_append _ _ _⟩
theorem devrdIo (off : Word) : Statement (.devrdIo off) := ⟨by simp only [encodeCmd]; decide, requestCmd_append _ _ _⟩
theorem devrdVid (off : Word) : Statement (.devrdVid off) := ⟨by simp only [encodeCmd]; decide, requestCmd_append _ _ _⟩
theorem devwrReg (off : Word) (v : Word) : Statement (.devwrReg off v) := ⟨by simp only [encodeCmd]; decide, requestCmd_append _ _ _⟩
theorem devwrMem (off : Word) (v : Word) : Statement (.devwrMem off v) := ⟨by simp only [encodeCmd]; decide, requestCmd_append _ _ _⟩
theorem devwrIo (off : Word) (v : Word) : Statement (.devwrIo off v) := ⟨by simp only [encodeCmd]; decide, requestCmd_append _ _ _⟩
theorem devwrVid (off : Word) (v : Word) : Statement (.devwrVid off v) := ⟨by simp only [encodeCmd]; decide, requestCmd_append _ _ _⟩
theorem devlenReg : Statement (.devlenReg) := ⟨by simp only [encodeCmd]; decide, requestCmd_append _ _ _⟩
theorem devlenMem : Statement (.devlenMem) := ⟨by simp only [encodeCmd]; decide, requestCmd_append _ _ _⟩
theorem devlenIo : Statement (.devlenIo) := ⟨by simp only [encodeCmd]; decide, requestCmd_append _ _ _⟩
theorem devlenVid : Statement (.devlenVid) := ⟨by simp only [encodeCmd]; decide, requestCmd_append _ _ _⟩
theorem vidend : Statement (.vidend) := ⟨by simp only [encodeCmd]; decide, requestCmd_append _ _ _⟩
theorem config (ram : Word) (vid : Word) : Statement (.config ram vid) := ⟨by simp only [encodeCmd]; decide, requestCmd_append _ _ _⟩
theorem imgsave (dst : SaveReport) : Statement (.imgsave dst) := ⟨by simp only [encodeCmd]; decide, requestCmd_append _ _ _⟩
theorem imgload (src : ImageSource) : Statement (.imgload src) := ⟨by simp only [encodeCmd]; decide, requestCmd_append _ _ _⟩

end Sys2Proof.Laws.CommandByte
end

