-- ==== Sys2Proof/Laws/Step.lean ====
section
/-! SUPPORT. The step by the request it takes. -/

namespace Sys2Proof.Machine

/-- A step with no request pending. -/
theorem step_nil (s : State) (h : s.requests = []) : step s = s.idle := by
  simp [step, State.fetch, h]

/-- A step with a request pending. -/
theorem step_cons (s : State) (r : Request) (rest : List Request) (h : s.requests = r :: rest) :
    step s = match decode r with
      | .error _ => ({ s with requests := rest } : State).rejectCommand
      | .ok i => exec i { s with requests := rest } := by
  rcases hd : decode r with e | i <;> simp only [step, State.fetch, h, hd]

/-- A machine with a table word issued takes that word's request next. -/
theorem step_withFetchWord (s : State) (nbits w : Nat) :
    step (s.withFetchWord nbits w) = match decode (tableRequest nbits w) with
      | .error _ => s.rejectCommand
      | .ok i => exec i s :=
  step_cons _ _ s.requests rfl

end Sys2Proof.Machine
end

