-- ==== Sys2Proof/Tests/Slice0.lean ====
section
/-! SUPPORT. The model's own tests: the WellFormed smoke, one written-out word per constructor, small single steps, and for
every statement with hypotheses a state and operands that meet them. The expected values are those of
95_test_vectors.md, of 30_encoding.md's table, or are worked out by hand from the rules named. -/

namespace Sys2Proof.Machine.Tests

/-! ## A small block -/

/-- The state after an outcome, if there is one. -/
def after (o : Host.Outcome State Fault Refusal) : Option State :=
  match o with
  | .next t => some t
  | .fault _ => none
  | .refused _ => none

/-- The response an outcome leaves. -/
def answer (o : Host.Outcome State Fault Refusal) : Option Response := (after o).bind State.response

/-- A device word after an outcome. -/
def wordAfter (d : Device) (i : Nat) (o : Host.Outcome State Fault Refusal) : Option Word :=
  (after o).bind fun t =>
    match t.block with
    | .unconfigured => none
    | .configured b => some (b.word d i)

/-- 95_test_vectors.md 2.6's bank: two words of memory, and one word of video memory. -/
def bus : Bus := { Bus.fresh 2#32 1#32 with mem := [(0, 0x01020304#32), (1, 0xA0B0C0D0#32)] }

/-- The block in use. -/
def on : State := { block := .configured bus, requests := [], response := none }

/-- The block before any CONFIG. -/
def off : State := State.reset

/-- The block with the largest legal sizes. -/
def bigBus : Bus := Bus.fresh 0xFFEFFF00#32 0x00100000#32

/-- Responses written short. -/
def ok (r0 r1 : Word) : Option Response := some ⟨.ok, r0, r1, none, none, none, none, none⟩

/-- An error response: status, address, offset, length, index. -/
def err (st : Status) (a o l i : Option Word) : Option Response := some ⟨st, 0#32, 0#32, a, o, l, i, none⟩

/-- A request with no side operand of interest. -/
def req (w : BitVec 72) : Request := ⟨w, .bytes [], .stored⟩

/-! ## WellFormed: each check refuses an ill-formed command byte (30_encoding.md R82, R88; 95_test_vectors.md 2.8) -/

theorem test_wellFormed_refuses_unassigned_op :
    commandWellFormed 0x00#8 = false ∧ commandWellFormed 0xB0#8 = false ∧ commandWellFormed 0xFF#8 = false := by decide
theorem test_wellFormed_refuses_reserved_bits :
    commandWellFormed 0x44#8 = false ∧ commandWellFormed 0x64#8 = false ∧ commandWellFormed 0x8C#8 = false := by decide
theorem test_wellFormed_refuses_device_select :
    commandWellFormed 0x21#8 = false ∧ commandWellFormed 0x71#8 = false := by decide
theorem test_wellFormed_accepts : commandWellFormed 0x53#8 = true ∧ commandWellFormed 0xA0#8 = true := by decide

/-! ## Decoding: a word per constructor, `op`, `cmd[3:2]`, `dev`, `a`, `d` written out (30_encoding.md R82 to R84) -/

theorem test_decode_classify : decode (req (0b0001#4 ++ 0b00#2 ++ 0b00#2 ++ 0x0000001D#32 ++ 0x00000000#32)) =
    .ok (.classify 0x1D#32) := by decide
theorem test_decode_read : decode (req (0b0010#4 ++ 0b00#2 ++ 0b00#2 ++ 0x0010010A#32 ++ 0x00000000#32)) =
    .ok (.read 0x0010010A#32) := by decide
theorem test_decode_read_ignores_d : decode (req (0b0010#4 ++ 0b00#2 ++ 0b00#2 ++ 0x0000001D#32 ++ 0x12345678#32)) =
    .ok (.read 0x1D#32) := by decide
theorem test_decode_write : decode (req (0b0011#4 ++ 0b00#2 ++ 0b00#2 ++ 0x0010010A#32 ++ 0x12345678#32)) =
    .ok (.write 0x0010010A#32 0x12345678#32) := by decide
theorem test_decode_devrd :
    decode (req (0b0100#4 ++ 0b00#2 ++ 0b00#2 ++ 0x00000010#32 ++ 0x00000000#32)) = .ok (.devrdReg 0x10#32) ∧
    decode (req (0b0100#4 ++ 0b00#2 ++ 0b01#2 ++ 0x000003FF#32 ++ 0x00000000#32)) = .ok (.devrdMem 0x3FF#32) ∧
    decode (req (0b0100#4 ++ 0b00#2 ++ 0b10#2 ++ 0x0000008F#32 ++ 0x00000000#32)) = .ok (.devrdIo 0x8F#32) ∧
    decode (req (0b0100#4 ++ 0b00#2 ++ 0b11#2 ++ 0x00000001#32 ++ 0x00000000#32)) = .ok (.devrdVid 0x1#32) := by decide
theorem test_decode_devwr :
    decode (req (0b0101#4 ++ 0b00#2 ++ 0b00#2 ++ 0x00000012#32 ++ 0x00100200#32)) =
      .ok (.devwrReg 0x12#32 0x00100200#32) ∧
    decode (req (0b0101#4 ++ 0b00#2 ++ 0b01#2 ++ 0x00000000#32 ++ 0xCAFEBABE#32)) =
      .ok (.devwrMem 0x0#32 0xCAFEBABE#32) ∧
    decode (req (0b0101#4 ++ 0b00#2 ++ 0b10#2 ++ 0x0000008F#32 ++ 0x00000041#32)) = .ok (.devwrIo 0x8F#32 0x41#32) ∧
    decode (req (0b0101#4 ++ 0b00#2 ++ 0b11#2 ++ 0x000000FF#32 ++ 0xFF00FF00#32)) =
      .ok (.devwrVid 0xFF#32 0xFF00FF00#32) := by decide
theorem test_decode_devlen :
    decode (req (0b0110#4 ++ 0b00#2 ++ 0b00#2 ++ 0xFFFFFFFF#32 ++ 0xFFFFFFFF#32)) = .ok .devlenReg ∧
    decode (req (0b0110#4 ++ 0b00#2 ++ 0b01#2 ++ 0x00000000#32 ++ 0x00000000#32)) = .ok .devlenMem ∧
    decode (req (0b0110#4 ++ 0b00#2 ++ 0b10#2 ++ 0x00000000#32 ++ 0x00000000#32)) = .ok .devlenIo ∧
    decode (req (0b0110#4 ++ 0b00#2 ++ 0b11#2 ++ 0x00000000#32 ++ 0x00000000#32)) = .ok .devlenVid := by decide
theorem test_decode_vidend : decode (req (0b0111#4 ++ 0b00#2 ++ 0b00#2 ++ 0x00000000#32 ++ 0x00000000#32)) =
    .ok .vidend := by decide
theorem test_decode_config : decode (req (0b1000#4 ++ 0b00#2 ++ 0b00#2 ++ 0x00000400#32 ++ 0x00000100#32)) =
    .ok (.config 1024#32 256#32) := by decide
theorem test_decode_image :
    decode ⟨0b1001#4 ++ 0b00#2 ++ 0b00#2 ++ 0x00000000#32 ++ 0x00000000#32, .notFound, .ioFail⟩ =
      .ok (.imgsave .ioFail) ∧
    decode ⟨0b1010#4 ++ 0b00#2 ++ 0b00#2 ++ 0x00000000#32 ++ 0x00000000#32, .bytes [0x2A#8], .ioFail⟩ =
      .ok (.imgload (.bytes [0x2A#8])) := by decide
theorem test_decode_rejects_by_name :
    decode (req 0x00FFFFFFFF00000000#72) = .error .unassignedOp ∧
    decode (req 0x440000000000000000#72) = .error .reservedBits ∧
    decode (req 0x210000000000000000#72) = .error .deviceSelect ∧
    decodeBytes [0x20#8, 0x00#8] (.bytes []) .stored = .error .notARequest := by decide
theorem test_decode_bytes :
    decodeBytes [0x30#8, 0x00#8, 0x10#8, 0x01#8, 0x0A#8, 0x12#8, 0x34#8, 0x56#8, 0x78#8] (.bytes []) .stored =
      .ok (.write 0x0010010A#32 0x12345678#32) := by decide

/-! ## The opcode table's words -/

theorem test_tableWord_decodes :
    decodeTableWord 8 0x41 = some (.devrdMem 0#32) ∧ decodeTableWord 8 0xA0 = some (.imgload (.bytes [])) ∧
    decodeTableWord 8 0x44 = none := by decide
theorem test_tableWord_runs : step (State.reset.withFetchWord 8 0x80) = exec (.config 0#32 0#32) State.reset := rfl

/-! ## Single steps -/

theorem test_classify_register_and_gap :
    answer (exec (.classify 0x1D#32) on) = ok 0#32 0x1D#32 ∧ answer (exec (.classify 0x1E#32) on) = ok 5#32 0#32 := by
  decide
theorem test_classify_video_and_main :
    answer (exec (.classify 0x001000FF#32) on) = ok 3#32 0xFFFFF#32 ∧
    answer (exec (.classify 0xFFFFFFFF#32) on) = ok 4#32 0xFFEFFEFF#32 := by decide
theorem test_read_last_word_of_bank :
    answer (exec (.read 0x00100101#32) on) = ok 0xA0B0C0D0#32 0#32 ∧
    answer (exec (.read 0x00100102#32) on) =
      err .memBounds (some 0x00100102#32) (some 2#32) (some 2#32) none := by decide
theorem test_read_unmapped :
    answer (exec (.read 0x20#32) on) = err .memOpcode (some 0x20#32) none none none ∧
    answer (exec (.read 0x20#32) off) = err .notConfigured none none none none := by decide
theorem test_write_io_port :
    wordAfter .io 0x10 (exec (.write 0x80#32 0x42#32) on) = some 0x42#32 ∧
    wordAfter .io 0x0F (exec (.write 0x80#32 0x42#32) on) = some 0#32 := by decide +kernel
theorem test_write_padding_address :
    answer (exec (.write 0x1F#32 7#32) on) = err .memReserved (some 0x1F#32) none none none ∧
    wordAfter .reg 0x1F (exec (.write 0x1F#32 7#32) on) = some 0#32 := by decide
theorem test_devrdReg_end :
    answer (exec (.devrdReg 0x1F#32) on) = ok 0#32 0#32 ∧
    answer (exec (.devrdReg 0x20#32) on) = err .memBounds none (some 0x20#32) (some 0x20#32) none := by decide
theorem test_devrdMem_word : answer (exec (.devrdMem 1#32) on) = ok 0xA0B0C0D0#32 0#32 := by decide
theorem test_devrdIo_end :
    answer (exec (.devrdIo 0x90#32) on) = err .memBounds none (some 0x90#32) (some 0x90#32) none := by decide
theorem test_devrdVid_end :
    answer (exec (.devrdVid 1#32) on) = err .memBounds none (some 1#32) (some 1#32) none := by decide
theorem test_devwrReg_padding : wordAfter .reg 0x1F (exec (.devwrReg 0x1F#32 0x77#32) on) = some 0x77#32 := by decide
theorem test_devwrReg_top :
    answer (exec (.devwrReg 0xFFFFFFFF#32 1#32) on) =
      err .memBounds none (some 0xFFFFFFFF#32) (some 0x20#32) none := by decide
theorem test_devwrMem_zero_keeps_canonical_form :
    (after (exec (.devwrMem 0#32 0#32) on)).map State.block =
      some (.configured { bus with mem := [(1, 0xA0B0C0D0#32)] }) := by decide
theorem test_devwrIo_last : wordAfter .io 0x8F (exec (.devwrIo 0x8F#32 0x41#32) on) = some 0x41#32 := by decide +kernel
theorem test_devwrVid_word : wordAfter .vid 0 (exec (.devwrVid 0#32 0xFF00FF00#32) on) = some 0xFF00FF00#32 := by decide
theorem test_devlen_of_each :
    answer (exec .devlenReg on) = ok 0x20#32 0#32 ∧ answer (exec .devlenMem on) = ok 2#32 0#32 ∧
    answer (exec .devlenIo on) = ok 0x90#32 0#32 ∧ answer (exec .devlenVid on) = ok 1#32 0#32 := by decide
theorem test_vidend : answer (exec .vidend on) = ok 0x100#32 0#32 := by decide
theorem test_config_empty_video :
    (after (exec (.config 1024#32 0#32) off)).bind (fun t => answer (exec .vidend t)) = ok 0xFF#32 0#32 := by decide
theorem test_config_limits :
    answer (exec (.config 1024#32 0x00100001#32) off) = err .configVideo none none (some 0x00100001#32) none ∧
    answer (exec (.config 1024#32 0xFFFFFFFF#32) off) = err .configVideo none none (some 0xFFFFFFFF#32) none ∧
    answer (exec (.config 0xFFEFFF01#32 0x00100001#32) off) = err .configVideo none none (some 0x00100001#32) none ∧
    answer (exec (.config 0xFFEFFF01#32 256#32) off) = err .configRam none none (some 0xFFEFFF01#32) none := by decide
theorem test_imgsave_bytes :
    answer (exec (.imgsave .stored) on) = some ⟨.ok, 2#32, 0#32, none, none, none, none,
      some [0x01#8, 0x02#8, 0x03#8, 0x04#8, 0xA0#8, 0xB0#8, 0xC0#8, 0xD0#8]⟩ := by decide
theorem test_imgsave_failed : answer (exec (.imgsave .ioFail) on) = err .ioError none none none none := by decide
theorem test_imgload_short :
    wordAfter .mem 0 (exec (.imgload (.bytes [0xDE#8, 0xAD#8, 0xBE#8, 0xEF#8])) on) = some 0xDEADBEEF#32 ∧
    wordAfter .mem 1 (exec (.imgload (.bytes [0xDE#8, 0xAD#8, 0xBE#8, 0xEF#8])) on) = some 0xA0B0C0D0#32 := by decide

/-- Three words for a bank of two (95_test_vectors.md 2.6). -/
def threeWords : List Byte := [0#8, 0#8, 0#8, 1#8, 0#8, 0#8, 0#8, 2#8, 0#8, 0#8, 0#8, 3#8]

theorem test_imgload_long :
    answer (exec (.imgload (.bytes threeWords)) on) =
      err .memBounds (some 0x00100102#32) (some 2#32) (some 2#32) (some 2#32) ∧
    wordAfter .mem 0 (exec (.imgload (.bytes threeWords)) on) = some 1#32 ∧
    wordAfter .mem 1 (exec (.imgload (.bytes threeWords)) on) = some 2#32 := by decide
theorem test_step_reserved_command_first :
    answer (step (off.issue (req 0x440000000000000000#72))) = err .invalidCommand none none none none := by decide

/-! ## Witnesses: for every statement with hypotheses, a state and operands that meet them -/

theorem bus_inv : bus.Inv := by constructor <;> decide
theorem bigBus_inv : bigBus.Inv := by constructor <;> decide
theorem on_inv : on.Inv := by
  intro b h
  cases h
  exact bus_inv

/-- A configured block that meets the invariant (every statement with `s.block = .configured b` and `b.Inv`). -/
theorem witness_configured : on.block = .configured bus ∧ bus.Inv := ⟨rfl, bus_inv⟩
/-- The same with the largest legal sizes. -/
theorem witness_configured_largest :
    ({ on with block := .configured bigBus } : State).block = .configured bigBus ∧ bigBus.Inv := ⟨rfl, bigBus_inv⟩
theorem witness_unconfigured : off.block = .unconfigured := rfl

theorem witness_StepRunsTheDecodedInstruction :
    (on.issue (req 0x200010010100000000#72)).requests = [req 0x200010010100000000#72] ∧
    decode (req 0x200010010100000000#72) = .ok (.read 0x00100101#32) := by decide
theorem witness_ReservedCommandIsAnsweredInvalid :
    (off.issue (req 0xB00000000000000000#72)).requests = [req 0xB00000000000000000#72] ∧
    commandWellFormed (requestCmd (req 0xB00000000000000000#72).word) = false := by decide
theorem witness_IdleBlockHoldsItsState : on.requests = [] := rfl
theorem witness_EveryRequestGetsAWellFormedResponse :
    (on.issue (req 0xFF0000000000000000#72)).requests = [req 0xFF0000000000000000#72] := by decide

/-- Each kind at its first and last address, for the clauses over an address (20_memory.md R51). -/
theorem witness_AddressKinds :
    (classify 0#32).1 = .register ∧ (classify 0x1D#32).1 = .register ∧ (classify 0x1E#32).1 = .reserved ∧
    (classify 0x1F#32).1 = .reserved ∧ (classify 0x20#32).1 = .opcode ∧ (classify 0x54#32).1 = .opcode ∧
    (classify 0x55#32).1 = .reserved ∧ (classify 0x6F#32).1 = .reserved ∧ (classify 0x70#32).1 = .io ∧
    (classify 0xFF#32) = (.io, 0x8F) ∧ (classify 0x100#32).1 = .video ∧ (classify 0x001000FF#32).1 = .video ∧
    (classify 0x00100100#32).1 = .main ∧ (classify 0xFFFFFFFF#32).1 = .main := by decide
theorem witness_EachDeviceWordHasOneAddress :
    (0x1D < bus.len .reg ∧ 0x1D ≤ 0x1D) ∧ 0x8F < bus.len .io ∧ 0 < bus.len .vid ∧ 1 < bus.len .mem ∧
    0xFFEFFEFF < bigBus.len .mem ∧ (classify 0x1D#32).1.device = some .reg := by decide
/-- Mapped words inside their devices, the last of each (ReadOfMappedWordReturnsIt, AccessesChangeExactlyTheNamedWord,
WrittenWordReadsBack, BusAndDevicePathsAgree). -/
theorem witness_MappedWord :
    ((classify 0x1D#32).1.device = some .reg ∧ (classify 0x1D#32).2 < bus.len .reg) ∧
    ((classify 0xFF#32).1.device = some .io ∧ (classify 0xFF#32).2 < bus.len .io) ∧
    ((classify 0x100#32).1.device = some .vid ∧ (classify 0x100#32).2 < bus.len .vid) ∧
    ((classify 0x00100101#32).1.device = some .mem ∧ (classify 0x00100101#32).2 < bus.len .mem) ∧
    ((classify 0xFFFFFFFF#32).1.device = some .mem ∧ (classify 0xFFFFFFFF#32).2 < bigBus.len .mem) := by decide
/-- Addresses with no word behind them: an unmapped one and one past its device (AccessesChangeExactlyTheNamedWord's last
clause, BusAndDevicePathsAgree's error side). -/
theorem witness_NoWordBehindTheAddress :
    (∀ d, (classify 0x20#32).1.device = some d → bus.len d ≤ (classify 0x20#32).2) ∧
    (∀ d, (classify 0x101#32).1.device = some d → bus.len d ≤ (classify 0x101#32).2) := by
  constructor <;> intro d <;> cases d <;> decide
theorem witness_UnmappedAddressesFailBothWays :
    (0x20 ≤ (0x20#32).toNat ∧ (0x20#32).toNat ≤ 0x54) ∧ (0x20 ≤ (0x54#32).toNat ∧ (0x54#32).toNat ≤ 0x54) ∧
    (0x1E ≤ (0x1E#32).toNat ∧ (0x1E#32).toNat ≤ 0x1F) ∧ (0x1E ≤ (0x1F#32).toNat ∧ (0x1F#32).toNat ≤ 0x1F) ∧
    (0x55 ≤ (0x55#32).toNat ∧ (0x55#32).toNat ≤ 0x6F) ∧ (0x55 ≤ (0x6F#32).toNat ∧ (0x6F#32).toNat ≤ 0x6F) := by decide
theorem witness_AccessPastTheConfiguredSizeFails :
    (0x100 + bus.cfg.videoSize.toNat ≤ (0x101#32).toNat ∧ (0x101#32).toNat ≤ 0x001000FF) ∧
    (0x100 + bus.cfg.videoSize.toNat ≤ (0x001000FF#32).toNat ∧ (0x001000FF#32).toNat ≤ 0x001000FF) ∧
    0x00100100 + bus.cfg.ramSize.toNat ≤ (0x00100102#32).toNat ∧
    0x00100100 + bus.cfg.ramSize.toNat ≤ (0xFFFFFFFF#32).toNat := by decide
/-- Offsets on both sides of each device's end (DeviceReadReturnsWordOrBoundsError, DeviceWriteStoresOneWordOrFails,
RegistersAreReachedAndNotWrittenOtherwise). -/
theorem witness_DeviceOffsets :
    (32 ≤ (32#32).toNat ∧ (31#32).toNat < 32) ∧ (144 ≤ (144#32).toNat ∧ (143#32).toNat < 144) ∧
    (bus.cfg.ramSize.toNat ≤ (2#32).toNat ∧ (1#32).toNat < bus.cfg.ramSize.toNat) ∧
    (bus.cfg.videoSize.toNat ≤ (1#32).toNat ∧ (0#32).toNat < bus.cfg.videoSize.toNat) := by decide
theorem witness_RegistersAreReachedAndNotWrittenOtherwise :
    (31#32).toNat < 32 ∧ (0x1D#32).toNat ≤ 0x1D ∧
    after (exec .vidend on) = some { on with response := ok 0x100#32 0#32 } ∧ isConfig .vidend = false := by decide
/-- A WRITE, a DEVWR.REG and a CONFIG that each change the program counter. -/
theorem witness_ProgramCounterChangesOnlyByNamedWrites :
    bus.special .pc = 0#32 ∧
    wordAfter .reg 0x10 (exec (.write 0x10#32 0x100#32) on) = some 0x100#32 ∧
    wordAfter .reg 0x10 (exec (.devwrReg 0x10#32 0x100#32) on) = some 0x100#32 ∧
    wordAfter .reg 0x10 (exec (.config 2#32 1#32) { on with block := .configured (bus.setWord .reg 0x10 5#32) }) =
      some 0#32 ∧ (bus.setWord .reg 0x10 5#32).special .pc = 5#32 := by decide
theorem witness_SuccessfulConfigResetsEveryWord :
    answer (exec (.config 0xFFEFFF00#32 0x00100000#32) on) = ok 0#32 0#32 ∧
    answer (exec (.config 0#32 0#32) off) = ok 0#32 0#32 := by decide
theorem witness_ConfigAcceptsExactlyTheLegalSizes :
    ((0x00100000#32).toNat ≤ 0x00100000 ∧ (0xFFEFFF00#32).toNat ≤ 0xFFEFFF00) ∧
    0x00100000 < (0x00100001#32).toNat ∧ 0xFFEFFF00 < (0xFFEFFF01#32).toNat := by decide
theorem witness_FailedConfigLeavesTheBlockUnusable :
    (answer (exec (.config 16#32 0x00100001#32) off)).map Response.status = some .configVideo ∧
    (answer (exec (.config 0xFFEFFF01#32 0#32) off)).map Response.status = some .configRam ∧
    isConfig .devlenReg = false := by decide
theorem witness_OnlyConfigChangesTheConfiguration :
    after (exec .vidend on) = some { on with response := ok 0x100#32 0#32 } ∧
    (after (exec .vidend off)).isSome = true ∧ isConfig .vidend = false := by decide
/-- A stream with a part of a word, one that fills the bank, an empty one, and one a word too long. -/
theorem witness_LoadStoresTheStreamOrFails :
    [0#8, 0#8, 0#8, 1#8, 0#8].length % 4 ≠ 0 ∧
    ((threeWords.take 8).length % 4 = 0 ∧ (threeWords.take 8).length / 4 ≤ bus.cfg.ramSize.toNat) ∧
    (([] : List Byte).length % 4 = 0 ∧ ([] : List Byte).length / 4 ≤ bus.cfg.ramSize.toNat) ∧
    (threeWords.length % 4 = 0 ∧ bus.cfg.ramSize.toNat < threeWords.length / 4) := by decide
/-- A failing request outside IMGLOAD, and an IMGLOAD that runs past the bank. -/
theorem witness_FailingRequestHasNoEffect :
    (answer (step (on.issue (req 0x200000002000000000#72)))).map Response.status = some .memOpcode ∧
    (answer (step (on.issue ⟨0xA00000000000000000#72, .bytes threeWords, .stored⟩))).map Response.status =
      some .memBounds ∧
    decode ⟨0xA00000000000000000#72, .bytes threeWords, .stored⟩ = .ok (.imgload (.bytes threeWords)) := by decide
theorem witness_FailingRequest_inv (r : Request) : (on.issue r).Inv := on_inv
/-- Every error an instruction can raise is raised (OnlyListedOperationsRaiseEachError, ErrorsCarryExactlyTheirFields). -/
theorem witness_EachErrorIsRaised :
    answer (exec (.devwrMem 2#32 1#32) on) = err .memBounds none (some 2#32) (some 2#32) none ∧
    answer (exec (.write 0x54#32 0#32) on) = err .memOpcode (some 0x54#32) none none none ∧
    answer (exec (.read 0x55#32) on) = err .memReserved (some 0x55#32) none none none ∧
    answer (exec .vidend off) = err .notConfigured none none none none ∧
    answer (exec (.config 0#32 0x00100001#32) on) = err .configVideo none none (some 0x00100001#32) none ∧
    answer (exec (.config 0xFFEFFF01#32 0#32) on) = err .configRam none none (some 0xFFEFFF01#32) none ∧
    answer (exec (.imgload (.bytes [0#8, 0#8, 0#8, 1#8, 0#8])) on) = err .imageLength none none (some 5#32) none ∧
    answer (exec (.imgload .ioFail) on) = err .ioError none none none none ∧
    answer (exec (.imgload .notFound) on) = err .resourceNotFound none none none none := by decide
/-- MEM_BOUNDS of each shape: a bus access, a device access, and an IMGLOAD past the bank (ErrorsCarryExactlyTheirFields). -/
theorem witness_EachMemBoundsShape :
    answer (exec (.write 0x101#32 1#32) on) = err .memBounds (some 0x101#32) (some 1#32) (some 1#32) none ∧
    answer (exec (.devrdIo 0x90#32) on) = err .memBounds none (some 0x90#32) (some 0x90#32) none ∧
    answer (exec (.imgload (.bytes threeWords)) on) =
      err .memBounds (some 0x00100102#32) (some 2#32) (some 2#32) (some 2#32) := by decide
/-- An IMGLOAD one word too long for the largest bank, whose error has no address (95_test_vectors.md 2.6). -/
theorem witness_MemBoundsWithoutAddress :
    answer (exec (.imgload (.bytes (List.replicate (4 * (0xFFEFFF00 + 1)) 0#8)))
        { on with block := .configured bigBus }) =
      err .memBounds none (some 0xFFEFFF00#32) (some 0xFFEFFF00#32) (some 0xFFEFFF00#32) := by
  have h := loadWords_error (imageWords (List.replicate (4 * (0xFFEFFF00 + 1)) 0#8)) bigBus 0 bigBus_inv (by decide)
  rw [imageWords_length, List.length_replicate, if_neg (by decide)] at h
  rw [exec_imgload_bytes _ _ bigBus rfl]
  unfold loadImage
  rw [List.length_replicate, if_neg (by decide)]
  rcases hl : loadWords bigBus 0 (imageWords (List.replicate (4 * (0xFFEFFF00 + 1)) 0#8)) with ⟨b', o⟩
  rw [hl] at h
  simp only at h
  subst h
  rfl
theorem witness_errors_invariant : on.Inv ∧ off.Inv := ⟨on_inv, fun b h => by cases h⟩
theorem witness_ReadingOperationsArePure (a : Word) (dst : SaveReport) :
    Instr.vidend ∈ [Instr.classify a, .read a, .devrdReg a, .devrdMem a, .devrdIo a, .devrdVid a, .devlenReg, .devlenMem,
      .devlenIo, .devlenVid, .vidend, .imgsave dst] := by simp
theorem witness_EveryInstructionsEffectOnEveryWord : isConfig (.write 0x10#32 5#32) = false := rfl
/-- A CONFIG and two writes of one word, the second of which is what is read back. -/
theorem witness_EveryWordHoldsItsLastWrite :
    answer (exec (.config 2#32 1#32) off) = ok 0#32 0#32 ∧
    (∀ i ∈ [Instr.write 0x00100101#32 7#32, .devwrMem 1#32 9#32], isConfig i = false) ∧
    (1#32).toNat < bus.len .mem ∧ (classify 0x00100101#32) = (.main, 1) ∧
    lastWritten bus .mem 1 [.write 0x00100101#32 7#32, .devwrMem 1#32 9#32] 0#32 = 9#32 := by decide
theorem witness_EveryStepKeepsTheInvariant :
    on.Inv ∧ after (step on) = some on := ⟨on_inv, by decide⟩

end Sys2Proof.Machine.Tests
end

section
/-! The device contract and the accesses of memory (20_memory.md R52 to R54, R66; 42_devices.md R122). -/

namespace Sys2Proof.Machine

/-! ## Queries and updates by what they compute -/

theorem query_of_ok {f : Bus → Except Response Response} {s : State} {b : Bus} {r : Response}
    (h : s.block = .configured b) (hf : f b = .ok r) : query f s = .next (s.reply r) := by
  rw [query_configured f s b h, hf]

theorem query_of_error {f : Bus → Except Response Response} {s : State} {b : Bus} {e : Response}
    (h : s.block = .configured b) (hf : f b = .error e) : query f s = .next (s.reply e) := by
  rw [query_configured f s b h, hf]

theorem update_of_ok {f : Bus → Except Response Bus} {s : State} {b b' : Bus}
    (h : s.block = .configured b) (hf : f b = .ok b') :
    update f s = .next (s.commit b' (okResponse 0#32 0#32)) := by
  rw [update_configured f s b h, hf]

theorem update_of_error {f : Bus → Except Response Bus} {s : State} {b : Bus} {e : Response}
    (h : s.block = .configured b) (hf : f b = .error e) : update f s = .next (s.reply e) := by
  rw [update_configured f s b h, hf]

/-- An update whose new block is the old one with one word of a device set stores that word and does nothing else. -/
theorem storesWord_of_update {i : Instr} {f : Bus → Except Response Bus} {s : State} {b : Bus} {d : Device} {off : Nat}
    {v : Word} (h : s.block = .configured b) (hb : b.Inv) (hoff : off < b.len d) (hi : exec i s = update f s)
    (hf : f b = .ok (b.setWord d off v)) : StoresWord i s b d off v := by
  refine ⟨b.setWord d off v, hi.trans (update_of_ok h hf), Bus.setWord_cfg b d off v,
    Bus.word_setWord_self b hb d off v hoff, fun d' off' hne => ?_⟩
  exact Bus.word_setWord_of_ne b hb d d' off off' v (hne.imp Ne.symm Ne.symm)

/-! ## The device contract -/

/-- A device's `MEM_BOUNDS` when offset and length are words: both fit their fields (60_exceptions.md R182). -/
theorem boundsError_toNat (off n : Word) :
    boundsError off.toNat n.toNat = { errorResponse .memBounds with eOff := some off, eLen := some n } := by
  simp only [boundsError, fit32_toNat]

/-- DEVRD of a device whose length is the word `n` (20_memory.md R53). -/
theorem exec_devrd_configured {s : State} {b : Bus} (h : s.block = .configured b) (d : Device) (n off : Word)
    (hn : b.len d = n.toNat) :
    exec (devrd d off) s = .next { s with response := some (
      if n.toNat ≤ off.toNat then { errorResponse .memBounds with eOff := some off, eLen := some n }
      else okResponse (b.word d off.toNat) 0#32) } := by
  rw [exec_devrd]
  by_cases hle : n.toNat ≤ off.toNat
  · rw [if_pos hle, ← boundsError_toNat, ← hn]
    exact query_of_error h (by rw [devRead_of_le b d off.toNat (hn ▸ hle)]; rfl)
  · rw [if_neg hle]
    exact query_of_ok h (by rw [devRead_of_lt b d off.toNat (by omega)]; rfl)

/-- DEVWR past the end of a device whose length is the word `n`: the check comes before any change (20_memory.md R54). -/
theorem exec_devwr_of_le {s : State} {b : Bus} (h : s.block = .configured b) (d : Device) (n off v : Word)
    (hn : b.len d = n.toNat) (hle : n.toNat ≤ off.toNat) :
    exec (devwr d off v) s = .next { s with
      response := some { errorResponse .memBounds with eOff := some off, eLen := some n } } := by
  rw [exec_devwr, ← boundsError_toNat, ← hn]
  exact update_of_error h (devWrite_of_le b d off.toNat v (hn ▸ hle))

/-- DEVWR inside a device (42_devices.md R122). -/
theorem devwr_storesWord {s : State} {b : Bus} (h : s.block = .configured b) (hb : b.Inv) (d : Device) (off v : Word)
    (hlt : off.toNat < b.len d) : StoresWord (devwr d off v) s b d off.toNat v :=
  storesWord_of_update h hb hlt (exec_devwr d off v s) (devWrite_of_lt b d off.toNat v hlt)

/-- Settles O20: each device by the contract of DEVRD, at the device's own length. -/
theorem deviceReadReturnsWordOrBoundsError : Obligations.DeviceReadReturnsWordOrBoundsError := by
  unfold Obligations.DeviceReadReturnsWordOrBoundsError
  intro s b off h
  exact ⟨exec_devrd_configured h .reg 32#32 off rfl, exec_devrd_configured h .mem b.cfg.ramSize off rfl,
    exec_devrd_configured h .io 144#32 off rfl, exec_devrd_configured h .vid b.cfg.videoSize off rfl⟩

/-- Settles O21: each device by the contract of DEVWR, on both sides of the device's own length. -/
theorem deviceWriteStoresOneWordOrFails : Obligations.DeviceWriteStoresOneWordOrFails := by
  unfold Obligations.DeviceWriteStoresOneWordOrFails
  intro s b off v h hb
  exact ⟨exec_devwr_of_le h .reg 32#32 off v rfl, devwr_storesWord h hb .reg off v,
    exec_devwr_of_le h .mem b.cfg.ramSize off v rfl, devwr_storesWord h hb .mem off v,
    exec_devwr_of_le h .io 144#32 off v rfl, devwr_storesWord h hb .io off v,
    exec_devwr_of_le h .vid b.cfg.videoSize off v rfl, devwr_storesWord h hb .vid off v⟩

/-- Settles O22: each DEVLEN is a query that answers the length and cannot fail. -/
theorem deviceLengthsAreAnswered : Obligations.DeviceLengthsAreAnswered := by
  unfold Obligations.DeviceLengthsAreAnswered
  intro s b h
  rw [exec_devlenReg, exec_devlenIo, exec_devlenVid, exec_devlenMem]
  exact ⟨query_of_ok h rfl, query_of_ok h rfl, query_of_ok h rfl, query_of_ok h rfl⟩

/-! ## Bus accesses -/

/-- WRITE of a mapped word inside its device (43_bus.md R144). -/
theorem write_storesWord {s : State} {b : Bus} (h : s.block = .configured b) (hb : b.Inv) (a v : Word) (d : Device)
    (hd : (classify a).1.device = some d) (hlt : (classify a).2 < b.len d) :
    StoresWord (.write a v) s b d (classify a).2 v := by
  refine storesWord_of_update h hb hlt (exec_write a v s) ?_
  rw [busWrite_mapped b a v hd, devWrite_of_lt b d _ v hlt]
  rfl

/-- WRITE of an address that names no word of a device only answers (43_bus.md R144). -/
theorem exec_write_of_no_word {s : State} {b : Bus} (h : s.block = .configured b) (a v : Word)
    (hno : ∀ d, (classify a).1.device = some d → b.len d ≤ (classify a).2) :
    ∃ e, exec (.write a v) s = .next (s.reply e) := by
  rcases hw : busWrite b a v with e | b'
  · exact ⟨e, update_of_error h hw⟩
  · obtain ⟨d, hd, hlt, -⟩ := busWrite_ok hw
    exact absurd (hno d hd) (Nat.not_le.mpr hlt)

/-- Settles O16: READ is a query; a WRITE sets one word or, where its address names none, is refused. -/
theorem accessesChangeExactlyTheNamedWord : Obligations.AccessesChangeExactlyTheNamedWord := by
  unfold Obligations.AccessesChangeExactlyTheNamedWord
  intro s b h hb
  exact ⟨fun a => query_reply (fun b => wordResponse (busRead b a)) s, write_storesWord h hb, exec_write_of_no_word h⟩

end Sys2Proof.Machine
end

section
/-! The address decoder and the uniformity of the accesses within a kind (41_address_decode.md R102, R103). -/

namespace Sys2Proof.Machine

/-- Settles O11: the decoder's answer at each listed boundary. -/
theorem listedBoundaryAddressesHaveTheirKinds : Obligations.ListedBoundaryAddressesHaveTheirKinds := by
  unfold Obligations.ListedBoundaryAddressesHaveTheirKinds
  decide

/-! ## Addresses with no device -/

/-- The error of a kind with no device, but for its address field; the kinds with a device never raise it. -/
def Kind.unmappedError : Kind → Response
  | .opcode => errorResponse .memOpcode
  | _ => errorResponse .memReserved

@[simp] theorem Kind.unmappedError_eAddr (k : Kind) : k.unmappedError.eAddr = none := by
  cases k <;> rfl

theorem Kind.device_eq_none {k : Kind} (h : k.device = none) : k = .opcode ∨ k = .reserved := by
  cases k with
  | opcode => exact .inl rfl
  | reserved => exact .inr rfl
  | register | io | video | main => cases h

/-- A bus read of an unmapped address is its kind's error, with the address added (43_bus.md R143). -/
theorem busRead_unmapped (b : Bus) (a : Word) (h : (classify a).1.device = none) :
    busRead b a = withAddress a (.error (classify a).1.unmappedError) := by
  rcases Kind.device_eq_none h with hk | hk
  · rw [busRead_opcode b a hk, hk]; rfl
  · rw [busRead_reserved b a hk, hk]; rfl

/-- A bus write of an unmapped address is its kind's error, with the address added (43_bus.md R144). -/
theorem busWrite_unmapped (b : Bus) (a v : Word) (h : (classify a).1.device = none) :
    busWrite b a v = withAddress a (.error (classify a).1.unmappedError) := by
  rcases Kind.device_eq_none h with hk | hk
  · rw [busWrite_opcode b a v hk, hk]; rfl
  · rw [busWrite_reserved b a v hk, hk]; rfl

/-! ## Responses but for the address field -/

/-- `i` changes nothing and answers `r₀`, but for an address field that is absent or reports `a`. -/
def AnswersUpToAddress (i : Instr) (s : State) (a : Word) (r₀ : Response) : Prop :=
  ∃ r, exec i s = .next { s with response := some r } ∧ (r.eAddr = none ∨ r.eAddr = some a) ∧
    { r with eAddr := none } = r₀

/-- The bus's error at `a` is the device's or the kind's error, but for the address the bus adds. -/
theorem answersUpToAddress_of_error {i : Instr} {s : State} {a : Word} {e : Response} (he : e.eAddr = none)
    (h : exec i s = .next (s.reply { e with eAddr := some a })) : AnswersUpToAddress i s a e :=
  ⟨_, h, .inr rfl, by rw [← he]⟩

/-- `i` puts the block in a new state and answers, as `p` says but for an address field that is absent or reports `a`. -/
def WritesUpToAddress (i : Instr) (s : State) (a : Word) (p : Block × Response) : Prop :=
  ∃ blk r, exec i s = .next { s with block := blk, response := some r } ∧ (r.eAddr = none ∨ r.eAddr = some a) ∧
    (blk, { r with eAddr := none }) = p

/-- An instruction that only answers leaves the block as it is. -/
theorem AnswersUpToAddress.writes {i : Instr} {s : State} {a : Word} {r₀ : Response}
    (hr : AnswersUpToAddress i s a r₀) :
    WritesUpToAddress i s a (s.block, r₀) := by
  obtain ⟨r, hexec, haddr, rfl⟩ := hr
  exact ⟨s.block, r, hexec, haddr, rfl⟩

/-! ## CLASSIFY, READ and WRITE on a configured block -/

section
variable {s : State} {b : Bus} (h : s.block = .configured b) (a v : Word)
include h

theorem exec_classify_configured : exec (.classify a) s = .next (s.reply (classifyResponse a)) :=
  (exec_classify a s).trans (query_of_ok h rfl)

/-- READ inside the device (43_bus.md R143). -/
theorem exec_read_of_lt {d : Device} (hd : (classify a).1.device = some d) (hlt : (classify a).2 < b.len d) :
    exec (.read a) s = .next (s.reply (okResponse (b.word d (classify a).2) 0#32)) :=
  query_of_ok h (by rw [busRead_mapped b a hd, devRead_of_lt b d _ hlt]; rfl)

/-- WRITE inside the device (43_bus.md R144). -/
theorem exec_write_of_lt {d : Device} (hd : (classify a).1.device = some d) (hlt : (classify a).2 < b.len d) :
    exec (.write a v) s = .next (s.commit (b.setWord d (classify a).2 v) (okResponse 0#32 0#32)) :=
  update_of_ok h (by rw [busWrite_mapped b a v hd, devWrite_of_lt b d _ v hlt]; rfl)

theorem read_answers_error {e : Response} (he : e.eAddr = none) (hr : busRead b a = withAddress a (.error e)) :
    AnswersUpToAddress (.read a) s a e :=
  answersUpToAddress_of_error he (query_of_error h (by rw [hr]; rfl))

theorem write_answers_error {e : Response} (he : e.eAddr = none) (hw : busWrite b a v = withAddress a (.error e)) :
    AnswersUpToAddress (.write a v) s a e :=
  answersUpToAddress_of_error he (update_of_error h hw)

theorem read_past_answers {d : Device} (hd : (classify a).1.device = some d) (hle : b.len d ≤ (classify a).2) :
    AnswersUpToAddress (.read a) s a (boundsError (classify a).2 (b.len d)) :=
  read_answers_error h a rfl (by rw [busRead_mapped b a hd, devRead_of_le b d _ hle])

theorem write_past_answers {d : Device} (hd : (classify a).1.device = some d) (hle : b.len d ≤ (classify a).2) :
    AnswersUpToAddress (.write a v) s a (boundsError (classify a).2 (b.len d)) :=
  write_answers_error h a v rfl (by rw [busWrite_mapped b a v hd, devWrite_of_le b d _ v hle])

theorem read_unmapped_answers (hd : (classify a).1.device = none) :
    AnswersUpToAddress (.read a) s a (classify a).1.unmappedError :=
  read_answers_error h a (Kind.unmappedError_eAddr _) (busRead_unmapped b a hd)

theorem write_unmapped_answers (hd : (classify a).1.device = none) :
    AnswersUpToAddress (.write a v) s a (classify a).1.unmappedError :=
  write_answers_error h a v (Kind.unmappedError_eAddr _) (busWrite_unmapped b a v hd)

end

/-! ## The accesses as functions of kind, offset and block -/

/-- CLASSIFY's response from the kind and the offset. -/
def kindClassify (k : Kind) (off : Nat) : Response := okResponse k.code (BitVec.ofNat 32 off)

/-- READ's response from the kind, the offset and the block, but for the address field. -/
def kindRead (k : Kind) (off : Nat) (b : Bus) : Response :=
  match k.device with
  | none => k.unmappedError
  | some d => if b.len d ≤ off then boundsError off (b.len d) else okResponse (b.word d off) 0#32

/-- WRITE's next block and response from the kind, the offset, the block and the word written, but for the address field. -/
def kindWrite (k : Kind) (off : Nat) (b : Bus) (v : Word) : Block × Response :=
  match k.device with
  | none => (.configured b, k.unmappedError)
  | some d =>
    if b.len d ≤ off then (.configured b, boundsError off (b.len d))
    else (.configured (b.setWord d off v), okResponse 0#32 0#32)

/-- READ answers `kindRead` of its address's kind and offset. -/
theorem read_answers_kindRead {s : State} {b : Bus} (h : s.block = .configured b) (a : Word) :
    AnswersUpToAddress (.read a) s a (kindRead (classify a).1 (classify a).2 b) := by
  unfold kindRead
  rcases hd : (classify a).1.device with _ | d
  · exact read_unmapped_answers h a hd
  · rcases Nat.lt_or_ge (classify a).2 (b.len d) with hlt | hle
    · simp only [if_neg (Nat.not_le.mpr hlt)]
      exact ⟨_, exec_read_of_lt h a hd hlt, .inl rfl, rfl⟩
    · simp only [if_pos hle]
      exact read_past_answers h a hd hle

/-- WRITE does what `kindWrite` says of its address's kind and offset. -/
theorem write_writes_kindWrite {s : State} {b : Bus} (h : s.block = .configured b) (a v : Word) :
    WritesUpToAddress (.write a v) s a (kindWrite (classify a).1 (classify a).2 b v) := by
  unfold kindWrite
  rcases hd : (classify a).1.device with _ | d
  · exact h ▸ (write_unmapped_answers h a v hd).writes
  · rcases Nat.lt_or_ge (classify a).2 (b.len d) with hlt | hle
    · simp only [if_neg (Nat.not_le.mpr hlt)]
      exact ⟨_, _, exec_write_of_lt h a v hd hlt, .inl rfl, rfl⟩
    · simp only [if_pos hle]
      exact h ▸ (write_past_answers h a v hd hle).writes

/-! ## Uniformity -/

/-- Every device word after one is set. -/
theorem Bus.word_setWord (b : Bus) (hb : b.Inv) (d : Device) (i : Nat) (v : Word) (hi : i < b.len d) (d' : Device)
    (j : Nat) : (b.setWord d i v).word d' j = if d' = d ∧ j = i then v else b.word d' j := by
  by_cases he : d' = d ∧ j = i
  · obtain ⟨rfl, rfl⟩ := he
    rw [if_pos ⟨rfl, rfl⟩, b.word_setWord_self hb _ _ v hi]
  · rw [if_neg he, b.word_setWord_of_ne hb d d' i j v ((not_and_or.mp he).imp Ne.symm Ne.symm)]

/-- Settles O14: the `kind…` functions give every outcome, and the three cases of an address (inside its device, past it,
with none) give the responses that are uniform within a kind. -/
theorem operationsAreUniformWithinAKind : Obligations.OperationsAreUniformWithinAKind := by
  unfold Obligations.OperationsAreUniformWithinAKind
  constructor
  · exact ⟨kindClassify, kindRead, kindWrite, fun s b a v h =>
      ⟨exec_classify_configured h a, read_answers_kindRead h a, write_writes_kindWrite h a v⟩⟩
  · refine ⟨Kind.code, fun _ w => okResponse w 0#32, fun _ => okResponse 0#32 0#32, fun _ => boundsError,
      fun _ => boundsError, Kind.unmappedError, Kind.unmappedError, fun s b a v h hb => ?_⟩
    refine ⟨exec_classify_configured h a, ?_, ?_, ?_⟩
    · intro d hd hlt
      exact ⟨exec_read_of_lt h a hd hlt, b.setWord d (classify a).2 v, exec_write_of_lt h a v hd hlt,
        b.setWord_cfg d _ v, b.word_setWord hb d _ v hlt⟩
    · intro d hd hle
      exact ⟨read_past_answers h a hd hle, write_past_answers h a v hd hle⟩
    · intro hd
      exact ⟨read_unmapped_answers h a hd, write_unmapped_answers h a v hd⟩

end Sys2Proof.Machine
end

section
/-! Errors of an unconfigured block (60_exceptions.md R183, R184). -/

namespace Sys2Proof.Machine

/-- The shape of every meaning but CONFIG's and IMGLOAD's: one query or one update of the block. -/
theorem exec_query_or_update {i : Instr} (hc : isConfig i = false) (hl : ∀ src, i ≠ .imgload src) :
    (∃ f, ∀ s, exec i s = query f s) ∨ (∃ f, ∀ s, exec i s = update f s) := by
  cases i with
  | classify a => exact .inl ⟨_, exec_classify a⟩
  | read a => exact .inl ⟨_, exec_read a⟩
  | write a v => exact .inr ⟨_, exec_write a v⟩
  | devrdReg off => exact .inl ⟨_, exec_devrd .reg off⟩
  | devrdMem off => exact .inl ⟨_, exec_devrd .mem off⟩
  | devrdIo off => exact .inl ⟨_, exec_devrd .io off⟩
  | devrdVid off => exact .inl ⟨_, exec_devrd .vid off⟩
  | devwrReg off v => exact .inr ⟨_, exec_devwr .reg off v⟩
  | devwrMem off v => exact .inr ⟨_, exec_devwr .mem off v⟩
  | devwrIo off v => exact .inr ⟨_, exec_devwr .io off v⟩
  | devwrVid off v => exact .inr ⟨_, exec_devwr .vid off v⟩
  | devlenReg => exact .inl ⟨_, exec_devlenReg⟩
  | devlenMem => exact .inl ⟨_, exec_devlenMem⟩
  | devlenIo => exact .inl ⟨_, exec_devlenIo⟩
  | devlenVid => exact .inl ⟨_, exec_devlenVid⟩
  | vidend => exact .inl ⟨_, exec_vidend⟩
  | imgsave dst => exact .inl ⟨_, exec_imgsave dst⟩
  | config ram vid => cases hc
  | imgload src => exact absurd rfl (hl src)

/-- NOT_CONFIGURED is checked before any check of the operation itself (60_exceptions.md R184). -/
theorem exec_unconfigured {i : Instr} {s : State} (h : s.block = .unconfigured) (hc : isConfig i = false) :
    exec i s = .next (s.reply (errorResponse .notConfigured)) := by
  by_cases hl : ∃ src, i = .imgload src
  · obtain ⟨src, rfl⟩ := hl
    exact exec_imgload_unconfigured src s h
  · rcases exec_query_or_update hc (not_exists.mp hl) with ⟨f, hf⟩ | ⟨f, hf⟩
    · rw [hf, query_unconfigured f s h]
    · rw [hf, update_unconfigured f s h]

/-- All CONFIG can do, from any state of the block: raise one of its two errors and leave the block, or put a fresh block in
its place (43_bus.md R141). -/
theorem exec_config_cases (ram vid : Word) (s : State) :
    (0x100000 < vid.toNat ∧ exec (.config ram vid) s = .next (s.reply (configVideoError vid))) ∨
    (vid.toNat ≤ 0x100000 ∧ 0xFFEFFF00 < ram.toNat ∧
      exec (.config ram vid) s = .next (s.reply (configRamError ram))) ∨
    (vid.toNat ≤ 0x100000 ∧ ram.toNat ≤ 0xFFEFFF00 ∧
      exec (.config ram vid) s = .next (s.commit (Bus.fresh ram vid) (okResponse 0#32 0#32))) := by
  rw [exec_config]
  rcases configure_cases ram vid with ⟨hv, hc⟩ | ⟨hv, hr, hc⟩ | ⟨hv, hr, hc⟩
  · exact .inl ⟨hv, by rw [hc]⟩
  · exact .inr (.inl ⟨hv, hr, by rw [hc]⟩)
  · exact .inr (.inr ⟨hv, hr, by rw [hc]⟩)

/-- Settles O30: a CONFIG that answers an error only replies, and every other instruction meets the NOT_CONFIGURED check
first. -/
theorem failedConfigLeavesTheBlockUnusable : Obligations.FailedConfigLeavesTheBlockUnusable := by
  unfold Obligations.FailedConfigLeavesTheBlockUnusable
  intro s h
  refine ⟨fun ram vid t r ht hr hne => ?_, fun i hc => exec_unconfigured h hc⟩
  rcases exec_config_cases ram vid s with ⟨-, hv⟩ | ⟨-, -, hm⟩ | ⟨-, -, hok⟩
  · obtain rfl := Host.Outcome.next.inj (hv.symm.trans ht)
    obtain rfl := Option.some.inj hr
    exact ⟨.inl rfl, h⟩
  · obtain rfl := Host.Outcome.next.inj (hm.symm.trans ht)
    obtain rfl := Option.some.inj hr
    exact ⟨.inr rfl, h⟩
  · obtain rfl := Host.Outcome.next.inj (hok.symm.trans ht)
    obtain rfl := Option.some.inj hr
    exact absurd rfl hne

end Sys2Proof.Machine
end

section
/-! The state a successful CONFIG leaves (10_state.md R35; 70_reset_and_hazards.md R202). -/

namespace Sys2Proof.Machine

/-- A vector of zero words reads as zero at every index, in it or past it. -/
theorem getD_replicate_zero (n i : Nat) : ((Vector.replicate n (0#32 : Word))[i]?).getD 0#32 = 0#32 := by
  rw [Vector.getElem?_replicate]
  split <;> rfl

/-- Every storage word of a fresh block is zero (70_reset_and_hazards.md R202). -/
@[simp] theorem Bus.fresh_word (ram vid : Word) (d : Device) (off : Nat) : (Bus.fresh ram vid).word d off = 0#32 := by
  cases d with
  | reg => exact getD_replicate_zero 32 off
  | mem => exact Memory.read_nil off
  | io => exact getD_replicate_zero 144 off
  | vid => exact Memory.read_nil off

/-- The video end of a fresh block is exact for every legal video size: it fits its 32 bits (10_state.md R25). -/
theorem Bus.fresh_videoEnd_toNat (ram : Word) {vid : Word} (hv : vid.toNat ≤ 0x100000) :
    (Bus.fresh ram vid).cfg.videoEnd.toNat = 0x100 + vid.toNat - 1 :=
  (BitVec.toNat_ofNat ..).trans (Nat.mod_eq_of_lt (by simp only [Config.videoBase]; omega))

/-- A CONFIG that answers OK has passed its checks and put a fresh block in the old one's place, whatever that was
(43_bus.md R141; 70_reset_and_hazards.md R201). -/
theorem exec_config_ok {s t : State} {r : Response} {ram vid : Word} (ht : exec (.config ram vid) s = .next t)
    (hr : t.response = some r) (hok : r.status = .ok) :
    vid.toNat ≤ 0x100000 ∧ ram.toNat ≤ 0xFFEFFF00 ∧ t = s.commit (Bus.fresh ram vid) (okResponse 0#32 0#32) := by
  rcases exec_config_cases ram vid s with ⟨-, hvideo⟩ | ⟨-, -, hram⟩ | ⟨hv, hm, hfresh⟩
  · obtain rfl := Host.Outcome.next.inj (hvideo.symm.trans ht)
    obtain rfl := Option.some.inj hr
    cases hok
  · obtain rfl := Host.Outcome.next.inj (hram.symm.trans ht)
    obtain rfl := Option.some.inj hr
    cases hok
  · exact ⟨hv, hm, Host.Outcome.next.inj (ht.symm.trans hfresh)⟩

/-- Settles O28: the block a successful CONFIG leaves is the fresh one of its sizes. -/
theorem successfulConfigResetsEveryWord : Obligations.SuccessfulConfigResetsEveryWord := by
  unfold Obligations.SuccessfulConfigResetsEveryWord
  intro s t r ram vid ht hr hok
  obtain ⟨hv, -, rfl⟩ := exec_config_ok ht hr hok
  exact ⟨Bus.fresh ram vid, State.commit_block .., Bus.fresh_word ram vid, Bus.fresh_ramSize .., Bus.fresh_videoSize ..,
    Bus.fresh_videoEnd_toNat ram hv⟩

end Sys2Proof.Machine
end

section
/-! The encoding: a request's fields, its bytes, and the command bytes that decode (30_encoding.md). -/

namespace Sys2Proof

/-- The decoder reads the three fields of an assembled request (30_encoding.md R80, R85). -/
theorem decode_append (c : Byte) (a d : Word) (src : ImageSource) (dst : SaveReport) :
    decode ⟨c ++ a ++ d, src, dst⟩ = decodeCommand c a d src dst := by
  simp only [decode, requestCmd_append, requestA_append, requestD_append]

/-- The table's command byte of an instruction decodes to it when the fields hold its operands (30_encoding.md R83). -/
theorem decodeCommand_encode (i : Instr) :
    decodeCommand (encodeCmd i) (encodeA i) (encodeD i) (encodeSrc i) (encodeDst i) = .ok i := by
  cases i <;> rfl

/-- The nine bytes of an instruction's request, joined, are its word (log 5). -/
theorem wordOfBytes_encodeBytes (i : Instr) : wordOfBytes (encodeBytes i) = some (encode i).word := by
  simp only [encodeBytes, wordOfBytes, joinBytes_splitBytes, encode]

/-- Settles O1: the word keeps its fields apart, and the nine bytes joined again are the word. -/
theorem decodeOfEncodeIsTheInstruction : Obligations.DecodeOfEncodeIsTheInstruction := by
  unfold Obligations.DecodeOfEncodeIsTheInstruction
  intro i
  have hword : decode (encode i) = .ok i := (decode_append ..).trans (decodeCommand_encode i)
  refine ⟨hword, ?_⟩
  rw [decodeBytes, wordOfBytes_encodeBytes]
  exact hword

/-! ## Command bytes -/

/-- The command bytes of the operation table's nineteen rows (30_encoding.md R83). -/
def tableCommands : List Byte :=
  [0x10#8, 0x20#8, 0x30#8, 0x40#8, 0x41#8, 0x42#8, 0x43#8, 0x50#8, 0x51#8, 0x52#8, 0x53#8,
    0x60#8, 0x61#8, 0x62#8, 0x63#8, 0x70#8, 0x80#8, 0x90#8, 0xA0#8]

/-- The checks of R82 and R88, evaluated at each of the 256 bytes. -/
theorem commandWellFormed_iff_mem : ∀ cmd : Byte, commandWellFormed cmd = true ↔ cmd ∈ tableCommands := by
  decide

/-- The encoder's command byte stands in the table. -/
theorem encodeCmd_mem (i : Instr) : encodeCmd i ∈ tableCommands := by
  cases i <;> simp [encodeCmd, tableCommands]

/-- A command byte that decodes is the encoder's byte of the instruction. -/
theorem encodeCmd_of_decodeCommand {cmd : Byte} {a d : Word} {src : ImageSource} {dst : SaveReport} {i : Instr}
    (h : decodeCommand cmd a d src dst = .ok i) : encodeCmd i = cmd := by
  unfold decodeCommand at h
  split at h
  case h_20 => cases h
  all_goals
    next hcmd =>
      cases h
      exact BitVec.eq_of_toNat_eq hcmd.symm

/-- Every command byte of the table decodes, whatever the fields. -/
theorem decodeCommand_of_mem {cmd : Byte} (h : cmd ∈ tableCommands) (a d : Word) (src : ImageSource)
    (dst : SaveReport) : ∃ i, decodeCommand cmd a d src dst = .ok i := by
  simp only [tableCommands, List.mem_cons, List.not_mem_nil, or_false] at h
  obtain rfl | rfl | rfl | rfl | rfl | rfl | rfl | rfl | rfl | rfl | rfl | rfl | rfl | rfl | rfl | rfl | rfl | rfl |
    rfl := h
  all_goals exact ⟨_, rfl⟩

/-- A command byte decodes exactly if it passes the checks (30_encoding.md R88). -/
theorem decodeCommand_ok_iff (cmd : Byte) (a d : Word) (src : ImageSource) (dst : SaveReport) :
    (∃ i, decodeCommand cmd a d src dst = .ok i) ↔ commandWellFormed cmd = true := by
  rw [commandWellFormed_iff_mem]
  constructor
  · rintro ⟨i, hi⟩
    exact encodeCmd_of_decodeCommand hi ▸ encodeCmd_mem i
  · exact fun h => decodeCommand_of_mem h a d src dst

/-- Settles O2: the checks hold of the table's bytes alone, and those are the encoder's. -/
theorem exactlyTheTablesCommandBytesDecode : Obligations.ExactlyTheTablesCommandBytesDecode := by
  unfold Obligations.ExactlyTheTablesCommandBytesDecode
  exact fun cmd a d src dst => ⟨commandWellFormed_iff_mem cmd, decodeCommand_ok_iff cmd a d src dst⟩

/-! ## Rows, words and lines written out -/

/-- Settles O3: each row is the decoder's table at the row's command byte. -/
theorem requestFieldsBecomeOperandsUnchanged : Obligations.RequestFieldsBecomeOperandsUnchanged := by
  unfold Obligations.RequestFieldsBecomeOperandsUnchanged
  intro a d src dst
  simp only [decode_append]
  exact ⟨rfl, rfl, rfl, rfl, rfl, rfl, rfl, rfl, rfl, rfl, rfl, rfl, rfl, rfl, rfl, rfl, rfl, rfl, rfl⟩

/-- Settles O4: the decoder evaluated at each written-out word. -/
theorem requestWordsWrittenOutDecode : Obligations.RequestWordsWrittenOutDecode := by
  unfold Obligations.RequestWordsWrittenOutDecode
  decide

/-- Settles O5: the assembler evaluated at each line. -/
theorem assembledLinesSpellTheirRequests : Obligations.AssembledLinesSpellTheirRequests := by
  unfold Obligations.AssembledLinesSpellTheirRequests
  decide

end Sys2Proof
end

section
/-! The address map: kinds by range and by bits, and the one address of each device word (20_memory.md section 3;
30_encoding.md section 3). -/

namespace Sys2Proof

/-- The first bus address of a device (20_memory.md R51). -/
def Device.base : Device → Nat
  | .reg => 0
  | .io => 0x70
  | .vid => 0x100
  | .mem => 0x100100

/-- The last bus address of a device's kind (20_memory.md R51). -/
def Device.last : Device → Nat
  | .reg => 0x1D
  | .io => 0xFF
  | .vid => 0x1000FF
  | .mem => 0xFFFFFFFF

/-- A word's high bits, from bit `k` up, by value. -/
theorem extractLsb'_high_eq_iff (a : Word) {k n : Nat} (hkn : k + n = 32) (v : BitVec n) :
    a.extractLsb' k n = v ↔ a.toNat / 2 ^ k = v.toNat := by
  have hlt : a.toNat / 2 ^ k < 2 ^ n :=
    Nat.div_lt_of_lt_mul (by rw [← Nat.pow_add, hkn]; exact a.isLt)
  rw [← BitVec.toNat_inj, BitVec.extractLsb'_toNat, Nat.shiftRight_eq_div_pow, Nat.mod_eq_of_lt hlt]

/-- A word's low `n` bits, by value. -/
theorem extractLsb'_low_toNat (a : Word) (n : Nat) : (a.extractLsb' 0 n).toNat = a.toNat % 2 ^ n := by
  rw [BitVec.extractLsb'_toNat, Nat.shiftRight_zero]

/-- An address less a base below it, computed exactly. -/
theorem ofNat_toNat_sub {a k : Word} (h : k.toNat ≤ a.toNat) : BitVec.ofNat 32 (a.toNat - k.toNat) = a - k := by
  rw [← BitVec.toNat_sub_of_le h, BitVec.ofNat_toNat, BitVec.setWidth_eq]

end Sys2Proof

namespace Sys2Proof.Machine

/-! ## Kinds and devices by range -/

/-- Each kind is its ranges of addresses (20_memory.md R51). -/
theorem classify_kind_iff (a : Word) :
    ((classify a).1 = .register ↔ a.toNat ≤ 0x1D) ∧
    ((classify a).1 = .reserved ↔ (0x1E ≤ a.toNat ∧ a.toNat ≤ 0x1F) ∨ (0x55 ≤ a.toNat ∧ a.toNat ≤ 0x6F)) ∧
    ((classify a).1 = .opcode ↔ 0x20 ≤ a.toNat ∧ a.toNat ≤ 0x54) ∧
    ((classify a).1 = .io ↔ 0x70 ≤ a.toNat ∧ a.toNat ≤ 0xFF) ∧
    ((classify a).1 = .video ↔ 0x100 ≤ a.toNat ∧ a.toNat ≤ 0x1000FF) ∧
    ((classify a).1 = .main ↔ 0x100100 ≤ a.toNat) := by
  obtain ⟨h, hc⟩ | ⟨h, h', hc⟩ | ⟨h, h', hc⟩ | ⟨h, h', hc⟩ | ⟨h, h', hc⟩ | ⟨h, h', hc⟩ | ⟨h, hc⟩ := classify_cases a
  all_goals
    simp only [hc, reduceCtorEq, true_iff, false_iff]
    omega

/-- The kinds with a device are the kinds of its range. -/
theorem Kind.device_eq_some_iff (k : Kind) (d : Device) :
    k.device = some d ↔
      (k = .register ∧ d = .reg) ∨ (k = .io ∧ d = .io) ∨ (k = .video ∧ d = .vid) ∨ (k = .main ∧ d = .mem) := by
  cases k <;> cases d <;> simp [Kind.device]

/-- An address belongs to a device exactly inside the device's range (20_memory.md R51). -/
theorem classify_device_iff (a : Word) (d : Device) :
    (classify a).1.device = some d ↔ d.base ≤ a.toNat ∧ a.toNat ≤ d.last := by
  obtain ⟨hreg, -, -, hio, hvid, hmem⟩ := classify_kind_iff a
  have hlt := a.isLt
  rw [Kind.device_eq_some_iff, hreg, hio, hvid, hmem]
  cases d <;> simp only [Device.base, Device.last, reduceCtorEq, and_true, and_false, or_false, false_or] <;> omega

/-- A mapped address is its device's base and its offset. -/
theorem base_add_classify_offset {a : Word} {d : Device} (hd : (classify a).1.device = some d) :
    d.base + (classify a).2 = a.toNat := by
  obtain ⟨h, hc⟩ | ⟨h, h', hc⟩ | ⟨h, h', hc⟩ | ⟨h, h', hc⟩ | ⟨h, h', hc⟩ | ⟨h, h', hc⟩ | ⟨h, hc⟩ := classify_cases a
  all_goals
    rw [hc] at hd ⊢
    cases hd <;> (simp only [Device.base]; omega)

/-- A mapped address's offset is the address less its device's base. -/
theorem classify_offset_eq_sub {a k : Word} {d : Device} (hd : (classify a).1.device = some d)
    (hk : d.base = k.toNat) : (classify a).2 = (a - k).toNat := by
  have hbase := base_add_classify_offset hd
  rw [BitVec.toNat_sub_of_le (show k.toNat ≤ a.toNat by omega)]
  omega

theorem classify_offset_le (a : Word) : (classify a).2 ≤ a.toNat := by
  obtain ⟨h, hc⟩ | ⟨h, h', hc⟩ | ⟨h, h', hc⟩ | ⟨h, h', hc⟩ | ⟨h, h', hc⟩ | ⟨h, h', hc⟩ | ⟨h, hc⟩ := classify_cases a
  all_goals simp only [hc]; omega

/-- An offset fits a word (41_address_decode.md R100). -/
theorem classify_offset_lt (a : Word) : (classify a).2 < 2 ^ 32 :=
  Nat.lt_of_le_of_lt (classify_offset_le a) a.isLt

@[simp] theorem classify_offset_toNat (a : Word) : (BitVec.ofNat 32 (classify a).2).toNat = (classify a).2 :=
  (BitVec.toNat_ofNat ..).trans (Nat.mod_eq_of_lt (classify_offset_lt a))

/-- Two addresses of one device word are one address. -/
theorem classify_injective {a a' : Word} {d : Device} (h : (classify a).1.device = some d)
    (h' : (classify a').1.device = some d) (hoff : (classify a').2 = (classify a).2) : a' = a := by
  apply BitVec.eq_of_toNat_eq
  rw [← base_add_classify_offset h, ← base_add_classify_offset h', hoff]

/-- Every offset whose address stays inside the device's range is the offset of that address. -/
theorem classify_of_base_add {d : Device} {off : Nat} (h : d.base + off ≤ d.last) :
    (classify (BitVec.ofNat 32 (d.base + off))).1.device = some d ∧
      (classify (BitVec.ofNat 32 (d.base + off))).2 = off := by
  have hlast : d.last < 2 ^ 32 := by cases d <;> decide
  have ha : (BitVec.ofNat 32 (d.base + off)).toNat = d.base + off :=
    (BitVec.toNat_ofNat ..).trans (Nat.mod_eq_of_lt (by omega))
  have hd := (classify_device_iff (BitVec.ofNat 32 (d.base + off)) d).mpr (by omega)
  exact ⟨hd, by have := base_add_classify_offset hd; omega⟩

/-- A word of a legal block but a padding word lies inside its device's range of addresses (20_memory.md R60). -/
theorem base_add_le_last {b : Bus} (hb : b.Inv) {d : Device} {off : Nat} (hoff : off < b.len d)
    (hreg : d = .reg → off ≤ 0x1D) : d.base + off ≤ d.last := by
  have hram := hb.ramLegal
  have hvid := hb.videoLegal
  simp only [Config.ramSizeMax, Config.videoSizeMax] at hram hvid
  cases d with
  | reg => simpa [Device.base, Device.last] using hreg rfl
  | mem => simp only [Bus.len_mem] at hoff; simp only [Device.base, Device.last]; omega
  | io => simp only [Bus.len_io] at hoff; simp only [Device.base, Device.last]; omega
  | vid => simp only [Bus.len_vid] at hoff; simp only [Device.base, Device.last]; omega

/-- Settles O13: the address of a word is its device's base and its offset. -/
theorem eachDeviceWordHasOneAddress : Obligations.EachDeviceWordHasOneAddress := by
  unfold Obligations.EachDeviceWordHasOneAddress
  intro b hb
  constructor
  · intro d off hoff hreg
    obtain ⟨hd, ho⟩ := classify_of_base_add (base_add_le_last hb hoff hreg)
    exact ⟨_, hd, ho, fun a' hd' ho' => classify_injective hd hd' (ho'.trans ho.symm)⟩
  · intro a hd
    exact Nat.le_trans (classify_offset_le a) ((classify_device_iff a .reg).mp hd).2

/-- Settles O12: each bit test is the kind's range, by the value of the bits. -/
theorem addressBitsDecideTheKind : Obligations.AddressBitsDecideTheKind := by
  unfold Obligations.AddressBitsDecideTheKind
  intro a
  have hlt := a.isLt
  obtain ⟨hreg, hres, hop, hio, hvid, hmain⟩ := classify_kind_iff a
  rw [extractLsb'_high_eq_iff a rfl, extractLsb'_high_eq_iff a rfl, extractLsb'_high_eq_iff a rfl,
    extractLsb'_high_eq_iff a rfl]
  simp only [extractLsb'_low_toNat, BitVec.toNat_ofNat]
  refine ⟨hreg.trans ?_, hres.trans ?_, hop.trans ?_, hio.trans ?_, hvid, hmain, fun hk => ?_⟩
  · omega
  · omega
  · omega
  · omega
  · have hoff := base_add_classify_offset (a := a) (d := .io) (by rw [hk]; rfl)
    have hr := hio.mp hk
    simp only [Device.base] at hoff
    omega

/-! ## CLASSIFY -/

/-- CLASSIFY's response by the ranges of the address map (41_address_decode.md R100). -/
theorem classifyResponse_eq (a : Word) : classifyResponse a =
    if a ≤ 0x1D#32 then okResponse 0#32 a
    else if a ≤ 0x1F#32 then okResponse 5#32 0#32
    else if a ≤ 0x54#32 then okResponse 1#32 0#32
    else if a ≤ 0x6F#32 then okResponse 5#32 0#32
    else if a ≤ 0xFF#32 then okResponse 2#32 (a - 0x70#32)
    else if a ≤ 0x001000FF#32 then okResponse 3#32 (a - 0x100#32)
    else okResponse 4#32 (a - 0x00100100#32) := by
  simp only [BitVec.le_def, BitVec.toNat_ofNat]
  obtain ⟨h, hc⟩ | ⟨h, h', hc⟩ | ⟨h, h', hc⟩ | ⟨h, h', hc⟩ | ⟨h, h', hc⟩ | ⟨h, h', hc⟩ | ⟨h, hc⟩ := classify_cases a
  all_goals simp only [classifyResponse, hc, Kind.code]
  · rw [if_pos (by omega), BitVec.ofNat_toNat, BitVec.setWidth_eq]
  · rw [if_neg (by omega), if_pos (by omega)]
  · rw [if_neg (by omega), if_neg (by omega), if_pos (by omega)]
  · rw [if_neg (by omega), if_neg (by omega), if_neg (by omega), if_pos (by omega)]
  · rw [if_neg (by omega), if_neg (by omega), if_neg (by omega), if_neg (by omega), if_pos (by omega),
      ← ofNat_toNat_sub (k := 0x70#32) h]
    rfl
  · rw [if_neg (by omega), if_neg (by omega), if_neg (by omega), if_neg (by omega), if_neg (by omega),
      if_pos (by omega), ← ofNat_toNat_sub (k := 0x100#32) h]
    rfl
  · rw [if_neg (by omega), if_neg (by omega), if_neg (by omega), if_neg (by omega), if_neg (by omega),
      if_neg (by omega), ← ofNat_toNat_sub (k := 0x00100100#32) h]
    rfl

/-- Settles O10: CLASSIFY only answers, and its response is the address map's. -/
theorem classifyAnswersKindAndOffset : Obligations.ClassifyAnswersKindAndOffset := by
  unfold Obligations.ClassifyAnswersKindAndOffset
  intro s b a h
  rw [exec_classify_configured h a, classifyResponse_eq]
  rfl

end Sys2Proof.Machine
end

section
/-! Bus and device accesses, inside a device, past it and with none behind the address (43_bus.md; 42_devices.md
section 4). -/

namespace Sys2Proof.Machine

/-! ## The accesses on a configured block -/

section
variable {s : State} {b : Bus} (h : s.block = .configured b) (a v : Word) {d : Device}
include h

/-- READ past the end of the device (43_bus.md R143). -/
theorem exec_read_of_le (hd : (classify a).1.device = some d) (hle : b.len d ≤ (classify a).2) :
    exec (.read a) s = .next (s.reply { boundsError (classify a).2 (b.len d) with eAddr := some a }) :=
  query_of_error h (by rw [busRead_mapped b a hd, devRead_of_le b d _ hle]; rfl)

/-- WRITE past the end of the device (43_bus.md R144). -/
theorem exec_write_of_le (hd : (classify a).1.device = some d) (hle : b.len d ≤ (classify a).2) :
    exec (.write a v) s = .next (s.reply { boundsError (classify a).2 (b.len d) with eAddr := some a }) :=
  update_of_error h (by rw [busWrite_mapped b a v hd, devWrite_of_le b d _ v hle]; rfl)

/-- READ and WRITE past the end of a device whose base is the word `k` and whose length is the word `n`
(60_exceptions.md R182). -/
theorem exec_access_past {k n : Word} (hd : (classify a).1.device = some d) (hk : d.base = k.toNat)
    (hn : b.len d = n.toNat) (hle : d.base + b.len d ≤ a.toNat) :
    exec (.read a) s = .next { s with response := some { errorResponse .memBounds with
      eAddr := some a, eOff := some (a - k), eLen := some n } } ∧
    exec (.write a v) s = .next { s with response := some { errorResponse .memBounds with
      eAddr := some a, eOff := some (a - k), eLen := some n } } := by
  have hbase := base_add_classify_offset hd
  have hpast : b.len d ≤ (classify a).2 := by omega
  rw [exec_read_of_le h a hd hpast, exec_write_of_le h a v hd hpast, classify_offset_eq_sub hd hk, hn,
    boundsError_toNat]
  exact ⟨rfl, rfl⟩

/-- DEVRD inside the device (20_memory.md R53). -/
theorem exec_devrd_of_lt (off : Word) (hlt : off.toNat < b.len d) :
    exec (devrd d off) s = .next (s.reply (okResponse (b.word d off.toNat) 0#32)) :=
  (exec_devrd d off s).trans (query_of_ok h (by rw [devRead_of_lt b d _ hlt]; rfl))

/-- DEVRD past the end of the device (20_memory.md R53). -/
theorem exec_devrd_of_le (off : Word) (hle : b.len d ≤ off.toNat) :
    exec (devrd d off) s = .next (s.reply (boundsError off.toNat (b.len d))) :=
  (exec_devrd d off s).trans (query_of_error h (by rw [devRead_of_le b d _ hle]; rfl))

/-- DEVWR inside the device (20_memory.md R54). -/
theorem exec_devwr_of_lt (off : Word) (hlt : off.toNat < b.len d) :
    exec (devwr d off v) s = .next (s.commit (b.setWord d off.toNat v) (okResponse 0#32 0#32)) :=
  (exec_devwr d off v s).trans (update_of_ok h (devWrite_of_lt b d _ v hlt))

/-- DEVWR past the end of the device leaves the block (20_memory.md R54). -/
theorem exec_devwr_past (off : Word) (hle : b.len d ≤ off.toNat) :
    exec (devwr d off v) s = .next (s.reply (boundsError off.toNat (b.len d))) :=
  (exec_devwr d off v s).trans (update_of_error h (devWrite_of_le b d _ v hle))

end

/-! ## The obligations -/

/-- Settles O15: the address is mapped and its offset inside the device, so READ reaches the word. -/
theorem readOfMappedWordReturnsIt : Obligations.ReadOfMappedWordReturnsIt := by
  unfold Obligations.ReadOfMappedWordReturnsIt
  exact fun s b a d h hd hlt => exec_read_of_lt h a hd hlt

/-- Settles O17: an Opcode or Reserved address has no device, and the bus raises its kind's error. -/
theorem unmappedAddressesFailBothWays : Obligations.UnmappedAddressesFailBothWays := by
  unfold Obligations.UnmappedAddressesFailBothWays
  intro s b a v h
  obtain ⟨-, hreserved, hopcode, -⟩ := classify_kind_iff a
  refine ⟨fun hr => ?_, fun hr => ?_⟩
  · have hk := hopcode.mpr hr
    exact ⟨query_of_error h (by rw [busRead_opcode b a hk]; rfl), update_of_error h (busWrite_opcode b a v hk)⟩
  · have hk := hreserved.mpr hr
    exact ⟨query_of_error h (by rw [busRead_reserved b a hk]; rfl), update_of_error h (busWrite_reserved b a v hk)⟩

/-- Settles O18: such an address belongs to its device, and its offset is at least the device's length. -/
theorem accessPastTheConfiguredSizeFails : Obligations.AccessPastTheConfiguredSizeFails := by
  unfold Obligations.AccessPastTheConfiguredSizeFails
  intro s b a v h
  refine ⟨fun ⟨hle, hmax⟩ => ?_, fun hle => ?_⟩
  · exact exec_access_past h a v (d := .vid) ((classify_device_iff a .vid).mpr ⟨Nat.le_of_add_right_le hle, hmax⟩) rfl
      rfl hle
  · exact exec_access_past h a v (d := .mem)
      ((classify_device_iff a .mem).mpr ⟨Nat.le_of_add_right_le hle, Nat.le_of_lt_succ a.isLt⟩) rfl rfl hle

/-- Settles O19: the WRITE commits the block with the word set, and the READ reaches that word. -/
theorem writtenWordReadsBack : Obligations.WrittenWordReadsBack := by
  unfold Obligations.WrittenWordReadsBack
  intro s b a v d h hb hd hlt
  refine ⟨_, exec_write_of_lt h a v hd hlt, ?_⟩
  rw [exec_read_of_lt (State.commit_block ..) a hd (by rwa [Bus.setWord_len]), b.word_setWord_self hb d _ v hlt]
  rfl

/-- Settles O23: both paths make the device's own check at the same offset, and the bus adds the address to an error. -/
theorem busAndDevicePathsAgree : Obligations.BusAndDevicePathsAgree := by
  unfold Obligations.BusAndDevicePathsAgree
  intro s b a v d h hd
  have hoff := classify_offset_toNat a
  rcases Nat.lt_or_ge (classify a).2 (b.len d) with hlt | hle
  · rw [exec_devrd_of_lt h _ (by rwa [hoff]), exec_devwr_of_lt h v _ (by rwa [hoff]), hoff,
      exec_read_of_lt h a hd hlt, exec_write_of_lt h a v hd hlt]
    exact ⟨⟨_, rfl, rfl, rfl⟩, ⟨_, _, rfl, rfl, rfl⟩⟩
  · rw [exec_devrd_of_le h _ (by rwa [hoff]), exec_devwr_past h v _ (by rwa [hoff]), hoff,
      exec_read_of_le h a hd hle, exec_write_of_le h a v hd hle]
    exact ⟨⟨_, rfl, rfl, rfl⟩, ⟨s.block, _, rfl, rfl, rfl⟩⟩

end Sys2Proof.Machine
end

section
/-! The shapes of the meanings, the form of a response, and the step (30_encoding.md section 1; 60_exceptions.md
section 1). -/

namespace Sys2Proof.Machine

/-! ## The shapes of meanings -/

/-- CLASSIFY, DEVLEN and VIDEND: an answer from the block, with no check of their own. -/
def isAnswer : Instr → Bool
  | .classify _ | .devlenReg | .devlenMem | .devlenIo | .devlenVid | .vidend => true
  | _ => false

/-- Every instruction by its shape: an answer, a bus access, an access of a device, CONFIG or an image operation. -/
theorem instr_shapes {motive : Instr → Prop} (answer : ∀ i, isAnswer i = true → motive i)
    (read : ∀ a, motive (.read a)) (write : ∀ a v, motive (.write a v)) (devrd : ∀ d off, motive (devrd d off))
    (devwr : ∀ d off v, motive (devwr d off v)) (config : ∀ ram vid, motive (.config ram vid))
    (imgsave : ∀ dst, motive (.imgsave dst)) (imgload : ∀ src, motive (.imgload src)) (i : Instr) : motive i := by
  cases i with
  | classify | devlenReg | devlenMem | devlenIo | devlenVid | vidend => exact answer _ rfl
  | read a => exact read a
  | write a v => exact write a v
  | devrdReg off => exact devrd .reg off
  | devrdMem off => exact devrd .mem off
  | devrdIo off => exact devrd .io off
  | devrdVid off => exact devrd .vid off
  | devwrReg off v => exact devwr .reg off v
  | devwrMem off v => exact devwr .mem off v
  | devwrIo off v => exact devwr .io off v
  | devwrVid off v => exact devwr .vid off v
  | config ram vid => exact config ram vid
  | imgsave dst => exact imgsave dst
  | imgload src => exact imgload src

/-- An answering instruction is a query that succeeds with two words. -/
theorem exec_answer {i : Instr} (hi : isAnswer i = true) :
    ∃ r0 r1 : Bus → Word, ∀ s, exec i s = query (fun b => .ok (okResponse (r0 b) (r1 b))) s := by
  cases i with
  | classify a => exact ⟨fun _ => (classify a).1.code, fun _ => BitVec.ofNat 32 (classify a).2, exec_classify a⟩
  | devlenReg => exact ⟨_, _, exec_devlenReg⟩
  | devlenMem => exact ⟨_, _, exec_devlenMem⟩
  | devlenIo => exact ⟨_, _, exec_devlenIo⟩
  | devlenVid => exact ⟨_, _, exec_devlenVid⟩
  | vidend => exact ⟨_, _, exec_vidend⟩
  | read | write | devrdReg | devrdMem | devrdIo | devrdVid | devwrReg | devwrMem | devwrIo | devwrVid | config
  | imgsave | imgload => cases hi

@[simp] theorem isConfig_devwr (d : Device) (off v : Word) : isConfig (devwr d off v) = false := by cases d <;> rfl

theorem eq_config_of_isConfig {i : Instr} (hi : isConfig i = true) : ∃ ram vid, i = .config ram vid := by
  cases i with
  | config ram vid => exact ⟨ram, vid, rfl⟩
  | classify | read | write | devrdReg | devrdMem | devrdIo | devrdVid | devwrReg | devwrMem | devwrIo | devwrVid
  | devlenReg | devlenMem | devlenIo | devlenVid | vidend | imgsave | imgload => cases hi

/-! ## The form of a response -/

theorem okResponse_wf (r0 r1 : Word) : (okResponse r0 r1).wf := ⟨fun _ => ⟨rfl, rfl, rfl, rfl⟩, fun h => absurd rfl h⟩

/-- The form of an error response: zero result words and no stream (30_encoding.md R81). -/
def Response.IsError (r : Response) : Prop := r.status ≠ .ok ∧ r.r0 = 0#32 ∧ r.r1 = 0#32 ∧ r.out = none

theorem errorResponse_isError {st : Status} (h : st ≠ .ok) : (errorResponse st).IsError := ⟨h, rfl, rfl, rfl⟩

theorem Response.IsError.wf {r : Response} (h : r.IsError) : r.wf := ⟨fun hok => absurd hok h.1, fun _ => h.2⟩

/-- An error that a bus access of address `a` raises (43_bus.md R143, R144). -/
inductive BusError (b : Bus) (a : Word) : Response → Prop
  | past {d : Device} (hd : (classify a).1.device = some d) (hle : b.len d ≤ (classify a).2) :
    BusError b a { boundsError (classify a).2 (b.len d) with eAddr := some a }
  | opcode (hk : (classify a).1 = .opcode) : BusError b a (opcodeError a)
  | reserved (hk : (classify a).1 = .reserved) : BusError b a (reservedError a)

theorem BusError.isError {b : Bus} {a : Word} {e : Response} (h : BusError b a e) : e.IsError := by
  cases h with
  | past | opcode | reserved => exact ⟨nofun, rfl, rfl, rfl⟩

/-- Both bus accesses fail alike: by the kind of an unmapped address, or by the check of the address's device. -/
theorem busError_of_access {α : Type} {b : Bus} {a : Word} {x : Except Response α} {y : Device → α} {e : Response}
    (hopcode : (classify a).1 = .opcode → x = .error (opcodeError a))
    (hreserved : (classify a).1 = .reserved → x = .error (reservedError a))
    (hmapped : ∀ d, (classify a).1.device = some d → x = withAddress a
      (if b.len d ≤ (classify a).2 then .error (boundsError (classify a).2 (b.len d)) else .ok (y d)))
    (h : x = .error e) : BusError b a e := by
  rcases hd : (classify a).1.device with _ | d
  · rcases Kind.device_eq_none hd with hk | hk
    · cases (hopcode hk).symm.trans h
      exact .opcode hk
    · cases (hreserved hk).symm.trans h
      exact .reserved hk
  · rw [hmapped d hd] at h
    split at h
    · next hle =>
      cases h
      exact .past hd hle
    · cases h

theorem busRead_error {b : Bus} {a : Word} {e : Response} (h : busRead b a = .error e) : BusError b a e :=
  busError_of_access (busRead_opcode b a) (busRead_reserved b a) (fun _ hd => busRead_mapped b a hd) h

theorem busWrite_error {b : Bus} {a v : Word} {e : Response} (h : busWrite b a v = .error e) : BusError b a e :=
  busError_of_access (busWrite_opcode b a v) (busWrite_reserved b a v) (fun _ hd => busWrite_mapped b a v hd) h

/-- A device access fails by its bounds check alone. -/
theorem boundsCheck_error {α : Type} {n off : Nat} {y : α} {e : Response}
    (h : (if n ≤ off then Except.error (boundsError off n) else .ok y) = .error e) : e = boundsError off n := by
  split at h
  · exact (Except.error.inj h).symm
  · cases h

theorem devRead_error {b : Bus} {d : Device} {off : Nat} {e : Response} (h : devRead b d off = .error e) :
    e = boundsError off (b.len d) := boundsCheck_error h

theorem devWrite_error {b : Bus} {d : Device} {off : Nat} {v : Word} {e : Response}
    (h : devWrite b d off v = .error e) : e = boundsError off (b.len d) := boundsCheck_error h

/-- A read word's response: the read's own error, or the word. -/
theorem wordResponse_cases (x : Except Response Word) :
    (∃ e, x = .error e ∧ wordResponse x = .error e) ∨ ∃ w, x = .ok w ∧ wordResponse x = .ok (okResponse w 0#32) := by
  cases x with
  | error e => exact .inl ⟨e, rfl, rfl⟩
  | ok w => exact .inr ⟨w, rfl, rfl⟩

/-! ## Image operations on any block -/

theorem saveWords_error_isError {b : Bus} {e : Response} (n : Nat) :
    ∀ i, saveWords b i n = .error e → e.IsError := by
  induction n with
  | zero => exact fun i h => by cases h
  | succ n ih =>
    intro i h
    unfold saveWords at h
    split at h
    · next hr =>
      cases h
      exact (busRead_error hr).isError
    · split at h
      · next hs =>
        cases h
        exact ih _ hs
      · cases h

theorem loadWords_error_isError {e : Response} (ws : List Word) :
    ∀ (b : Bus) (i : Nat), (loadWords b i ws).2 = some e → e.IsError := by
  induction ws with
  | nil => exact fun b i h => by cases h
  | cons w ws ih =>
    intro b i h
    unfold loadWords at h
    split at h
    · cases h
      exact ⟨nofun, rfl, rfl, rfl⟩
    · split at h
      · next hw =>
        cases h
        exact (busWrite_error hw).isError
      · exact ih _ _ h

/-- IMGLOAD's outcome on a stream with a part of a word (44_image.md R163). -/
theorem loadImage_of_part (b : Bus) {bytes : List Byte} (h : bytes.length % 4 ≠ 0) :
    loadImage b bytes = (b, imageLengthError bytes.length) := by
  unfold loadImage
  rw [if_pos h]

/-- IMGLOAD's outcome on a stream of whole words: the loop's (44_image.md R163). -/
theorem loadImage_of_whole (b : Bus) {bytes : List Byte} (h : bytes.length % 4 = 0) :
    loadImage b bytes = ((loadWords b 0 (imageWords bytes)).1,
      (loadWords b 0 (imageWords bytes)).2.getD (okResponse (BitVec.ofNat 32 (bytes.length / 4)) 0#32)) := by
  unfold loadImage
  rw [if_neg (not_not_intro h)]
  rcases loadWords b 0 (imageWords bytes) with ⟨b', _ | e⟩ <;> rfl

theorem loadImage_wf (b : Bus) (bytes : List Byte) : (loadImage b bytes).2.wf := by
  by_cases h : bytes.length % 4 = 0
  · rw [loadImage_of_whole b h]
    rcases hl : (loadWords b 0 (imageWords bytes)).2 with _ | e
    · exact okResponse_wf _ _
    · exact (loadWords_error_isError _ b 0 hl).wf
  · rw [loadImage_of_part b h]
    exact Response.IsError.wf ⟨nofun, rfl, rfl, rfl⟩

/-- All IMGSAVE can answer: an error, or a success with a stream (44_image.md R162). -/
theorem saveImage_cases (dst : SaveReport) (b : Bus) :
    (∃ e, saveImage dst b = .error e ∧ e.IsError) ∨
    ∃ out, saveImage dst b = .ok { okResponse b.cfg.ramSize 0#32 with out := some out } := by
  rcases hs : saveWords b 0 b.cfg.ramSize.toNat with e | out
  · exact .inl ⟨e, by simp only [saveImage, hs], saveWords_error_isError _ 0 hs⟩
  · cases dst with
    | stored => exact .inr ⟨out, by simp only [saveImage, hs]⟩
    | ioFail => exact .inl ⟨errorResponse .ioError, by simp only [saveImage, hs], errorResponse_isError nofun⟩

/-! ## Every instruction replies -/

/-- The outcome is a next state that differs in its block and its response alone, and the response has R81's form. -/
def Replies (s : State) (o : Host.Outcome State Fault Refusal) : Prop :=
  ∃ blk r, o = .next { s with block := blk, response := some r } ∧ r.wf

theorem reply_replies (s : State) {r : Response} (hr : r.wf) : Replies s (.next (s.reply r)) := ⟨s.block, r, rfl, hr⟩

theorem errorReply_replies (s : State) {st : Status} (h : st ≠ .ok) : Replies s (.next (s.reply (errorResponse st))) :=
  reply_replies s (errorResponse_isError h).wf

theorem commit_replies (s : State) (b : Bus) {r : Response} (hr : r.wf) : Replies s (.next (s.commit b r)) :=
  ⟨.configured b, r, rfl, hr⟩

theorem query_replies {f : Bus → Except Response Response} (s : State)
    (hf : ∀ b, (∃ e, f b = .error e ∧ e.IsError) ∨ ∃ r, f b = .ok r ∧ r.wf) : Replies s (query f s) := by
  rcases hblk : s.block with _ | b
  · rw [query_unconfigured f s hblk]
    exact errorReply_replies s nofun
  · rcases hf b with ⟨e, he, hform⟩ | ⟨r, hr, hform⟩
    · rw [query_of_error hblk he]
      exact reply_replies s hform.wf
    · rw [query_of_ok hblk hr]
      exact reply_replies s hform

theorem wordQuery_replies {f : Bus → Except Response Word} (s : State)
    (hf : ∀ b e, f b = .error e → e.IsError) : Replies s (query (fun b => wordResponse (f b)) s) := by
  refine query_replies s fun b => ?_
  rcases wordResponse_cases (f b) with ⟨e, he, hr⟩ | ⟨w, -, hr⟩
  · exact .inl ⟨e, hr, hf b e he⟩
  · exact .inr ⟨_, hr, okResponse_wf w 0#32⟩

theorem update_replies {f : Bus → Except Response Bus} (s : State) (hf : ∀ b e, f b = .error e → e.IsError) :
    Replies s (update f s) := by
  rcases hblk : s.block with _ | b
  · rw [update_unconfigured f s hblk]
    exact errorReply_replies s nofun
  · rcases hw : f b with e | b'
    · rw [update_of_error hblk hw]
      exact reply_replies s (hf b e hw).wf
    · rw [update_of_ok hblk hw]
      exact commit_replies s b' (okResponse_wf _ _)

theorem config_replies (ram vid : Word) (s : State) : Replies s (exec (.config ram vid) s) := by
  rcases exec_config_cases ram vid s with ⟨-, h⟩ | ⟨-, -, h⟩ | ⟨-, -, h⟩
  · exact h ▸ reply_replies s (Response.IsError.wf ⟨nofun, rfl, rfl, rfl⟩)
  · exact h ▸ reply_replies s (Response.IsError.wf ⟨nofun, rfl, rfl, rfl⟩)
  · exact h ▸ commit_replies s _ (okResponse_wf _ _)

theorem imgload_replies (src : ImageSource) (s : State) : Replies s (exec (.imgload src) s) := by
  rcases hblk : s.block with _ | b
  · exact exec_imgload_unconfigured src s hblk ▸ errorReply_replies s nofun
  · cases src with
    | bytes bytes => exact exec_imgload_bytes bytes s b hblk ▸ commit_replies s _ (loadImage_wf b bytes)
    | notFound =>
      exact exec_imgload_notFound s b hblk ▸ errorReply_replies s nofun
    | ioFail => exact exec_imgload_ioFail s b hblk ▸ errorReply_replies s nofun

/-- Every instruction, in every state, ends with a response of R81's form and leaves the pending requests
(60_exceptions.md R180). -/
theorem exec_replies (i : Instr) (s : State) : Replies s (exec i s) := by
  cases i using instr_shapes with
  | answer i hi =>
    obtain ⟨r0, r1, hexec⟩ := exec_answer hi
    exact hexec s ▸ query_replies s fun b => .inr ⟨_, rfl, okResponse_wf _ _⟩
  | read a => exact wordQuery_replies s fun b e he => (busRead_error he).isError
  | write a v => exact update_replies s fun b e he => (busWrite_error he).isError
  | devrd d off =>
    exact exec_devrd d off s ▸ wordQuery_replies s fun b e he =>
      devRead_error he ▸ ⟨nofun, rfl, rfl, rfl⟩
  | devwr d off v =>
    exact exec_devwr d off v s ▸ update_replies s fun b e he =>
      devWrite_error he ▸ ⟨nofun, rfl, rfl, rfl⟩
  | config ram vid => exact config_replies ram vid s
  | imgsave dst =>
    refine query_replies s fun b => (saveImage_cases dst b).imp_right ?_
    rintro ⟨out, hout⟩
    exact ⟨_, hout, fun _ => ⟨rfl, rfl, rfl, rfl⟩, fun h => absurd rfl h⟩
  | imgload src => exact imgload_replies src s

/-! ## The step -/

/-- Settles O6: the step by the request it takes. -/
theorem stepRunsTheDecodedInstruction : Obligations.StepRunsTheDecodedInstruction := by
  unfold Obligations.StepRunsTheDecodedInstruction
  intro s r rest i hreq hd
  rw [step_cons s r rest hreq, hd]

/-- A request that does not decode is answered INVALID_COMMAND (30_encoding.md R88). -/
theorem step_of_decode_error {s : State} {r : Request} {rest : List Request} {e : DecodeError}
    (hreq : s.requests = r :: rest) (hd : decode r = .error e) :
    step s = .next (({ s with requests := rest } : State).reply (errorResponse .invalidCommand)) := by
  rw [step_cons s r rest hreq, hd]
  rfl

/-- Settles O7: a command byte that decodes passes the checks, so this one does not decode. -/
theorem reservedCommandIsAnsweredInvalid : Obligations.ReservedCommandIsAnsweredInvalid := by
  unfold Obligations.ReservedCommandIsAnsweredInvalid
  intro s r rest hreq hbad
  rcases hd : decode r with e | i
  · exact step_of_decode_error hreq hd
  · have hgood := (decodeCommand_ok_iff (requestCmd r.word) _ _ r.src r.dst).mp ⟨i, hd⟩
    cases hbad.symm.trans hgood

/-- Settles O8: a step with no request is idle. -/
theorem idleBlockHoldsItsState : Obligations.IdleBlockHoldsItsState := by
  unfold Obligations.IdleBlockHoldsItsState
  exact step_nil

/-- Settles O9: the request is rejected, or its instruction replies. -/
theorem everyRequestGetsAWellFormedResponse : Obligations.EveryRequestGetsAWellFormedResponse := by
  unfold Obligations.EveryRequestGetsAWellFormedResponse
  intro s r rest hreq
  rcases hd : decode r with e | i
  · exact ⟨_, _, step_of_decode_error hreq hd, rfl, rfl, Response.IsError.wf (errorResponse_isError nofun)⟩
  · obtain ⟨blk, resp, hexec, hwf⟩ := exec_replies i { s with requests := rest }
    exact ⟨_, resp, (stepRunsTheDecodedInstruction s r rest i hreq hd).trans hexec, rfl, rfl, hwf⟩

end Sys2Proof.Machine
end

section
/-! What every instruction keeps, and the invariant (10_state.md section 1; 70_reset_and_hazards.md section 1). -/

namespace Sys2Proof.Machine

/-! ## What the image loop keeps -/

/-- IMGLOAD's loop keeps every property of the block that setting a word inside a device keeps. -/
theorem loadWords_keeps {P : Bus → Prop}
    (hP : ∀ b d off v, off < b.len d → P b → P (b.setWord d off v)) (ws : List Word) :
    ∀ (b : Bus) (i : Nat), P b → P (loadWords b i ws).1 := by
  induction ws with
  | nil => exact fun b i hb => hb
  | cons w ws ih =>
    intro b i hb
    unfold loadWords
    split
    · exact hb
    · split
      · exact hb
      · next b' hw =>
        obtain ⟨d, -, hlt, rfl⟩ := busWrite_ok hw
        exact ih _ _ (hP b d _ w hlt hb)

theorem loadImage_keeps {P : Bus → Prop}
    (hP : ∀ b d off v, off < b.len d → P b → P (b.setWord d off v)) {b : Bus} (hb : P b) (bytes : List Byte) :
    P (loadImage b bytes).1 := by
  by_cases h : bytes.length % 4 = 0
  · rw [loadImage_of_whole b h]
    exact loadWords_keeps hP _ b 0 hb
  · rwa [loadImage_of_part b h]

/-! ## What an instruction keeps -/

/-- The outcome of an operation that completes on a configured block with its new block satisfying `P`. -/
def CompletesWith (P : Bus → Prop) (s : State) (o : Host.Outcome State Fault Refusal) : Prop :=
  ∃ b' r, o = .next { s with block := .configured b', response := some r } ∧ P b'

section
variable {P : Bus → Prop} (hP : ∀ b d off v, off < b.len d → P b → P (b.setWord d off v))
  {s : State} {b : Bus} (h : s.block = .configured b) (hb : P b)
include h hb

theorem reply_completesWith (r : Response) : CompletesWith P s (.next (s.reply r)) :=
  ⟨b, r, by rw [← h]; rfl, hb⟩

theorem query_completesWith (f : Bus → Except Response Response) : CompletesWith P s (query f s) := by
  obtain ⟨r, hr⟩ := query_reply f s
  exact hr ▸ reply_completesWith h hb r

include hP

theorem write_completesWith (a v : Word) : CompletesWith P s (exec (.write a v) s) := by
  rw [exec_write]
  rcases hw : busWrite b a v with e | b'
  · rw [update_of_error h hw]
    exact reply_completesWith h hb e
  · obtain ⟨d, -, hlt, rfl⟩ := busWrite_ok hw
    rw [update_of_ok h hw]
    exact ⟨_, _, rfl, hP b d _ v hlt hb⟩

theorem devwr_completesWith (d : Device) (off v : Word) : CompletesWith P s (exec (devwr d off v) s) := by
  rcases Nat.lt_or_ge off.toNat (b.len d) with hlt | hle
  · rw [exec_devwr_of_lt h v off hlt]
    exact ⟨_, _, rfl, hP b d _ v hlt hb⟩
  · rw [exec_devwr_past h v off hle]
    exact reply_completesWith h hb _

theorem imgload_completesWith (src : ImageSource) : CompletesWith P s (exec (.imgload src) s) := by
  cases src with
  | bytes bytes =>
    rw [exec_imgload_bytes bytes s b h]
    exact ⟨_, _, rfl, loadImage_keeps hP hb bytes⟩
  | notFound =>
    rw [exec_imgload_notFound s b h]
    exact reply_completesWith h hb _
  | ioFail =>
    rw [exec_imgload_ioFail s b h]
    exact reply_completesWith h hb _

/-- Every instruction but CONFIG completes on a configured block, and keeps every property of the block that setting a
word inside a device keeps. -/
theorem exec_completesWith (i : Instr) (hc : isConfig i = false) : CompletesWith P s (exec i s) := by
  cases i using instr_shapes with
  | answer i hi =>
    obtain ⟨r0, r1, hexec⟩ := exec_answer hi
    exact hexec s ▸ query_completesWith h hb _
  | read a => exact query_completesWith h hb _
  | write a v => exact write_completesWith hP h hb a v
  | devrd d off => exact exec_devrd d off s ▸ query_completesWith h hb _
  | devwr d off v => exact devwr_completesWith hP h hb d off v
  | config ram vid => cases hc
  | imgsave dst => exact query_completesWith h hb _
  | imgload src => exact imgload_completesWith hP h hb src

end

/-- Settles O31: the requests are no part of what an instruction writes, and setting a word keeps `cfg`. -/
theorem onlyConfigChangesTheConfiguration : Obligations.OnlyConfigChangesTheConfiguration := by
  unfold Obligations.OnlyConfigChangesTheConfiguration
  intro s t i ht
  refine ⟨?_, fun hc => ⟨fun hu => ?_, fun b h => ?_⟩⟩
  · obtain ⟨blk, r, hexec, -⟩ := exec_replies i s
    obtain rfl := Host.Outcome.next.inj (hexec.symm.trans ht)
    rfl
  · obtain rfl := Host.Outcome.next.inj ((exec_unconfigured hu hc).symm.trans ht)
    exact hu
  · obtain ⟨b', r, hexec, hcfg⟩ := exec_completesWith (P := fun b' => b'.cfg = b.cfg)
      (fun b' d off v _ hb' => (b'.setWord_cfg d off v).trans hb') h rfl i hc
    obtain rfl := Host.Outcome.next.inj (hexec.symm.trans ht)
    exact ⟨b', rfl, hcfg⟩

/-! ## The invariant -/

/-- A fresh block of legal sizes meets the invariant (43_bus.md R141). -/
theorem Bus.fresh_inv {ram vid : Word} (hv : vid.toNat ≤ 0x100000) (hm : ram.toNat ≤ 0xFFEFFF00) :
    (Bus.fresh ram vid).Inv where
  memWf := Memory.wf_nil
  vidWf := Memory.wf_nil
  memInside := by simp
  vidInside := by simp
  ramLegal := hm
  videoLegal := hv
  endExact := Bus.fresh_videoEnd_toNat ram hv

/-- A machine with the old block and another response or other pending requests meets the invariant. -/
theorem State.Inv.of_block_eq {s t : State} (hs : s.Inv) (h : t.block = s.block) : t.Inv :=
  fun b hb => hs b (h ▸ hb)

theorem State.Inv.commit (s : State) {b : Bus} (hb : b.Inv) (r : Response) : (s.commit b r).Inv := by
  intro b' h
  obtain rfl := Block.configured.inj h
  exact hb

theorem exec_config_inv {s t : State} (hs : s.Inv) {ram vid : Word} (ht : exec (.config ram vid) s = .next t) :
    t.Inv := by
  rcases exec_config_cases ram vid s with ⟨-, hv⟩ | ⟨-, -, hm⟩ | ⟨hv, hm, hok⟩
  · obtain rfl := Host.Outcome.next.inj (hv.symm.trans ht)
    exact hs.of_block_eq rfl
  · obtain rfl := Host.Outcome.next.inj (hm.symm.trans ht)
    exact hs.of_block_eq rfl
  · obtain rfl := Host.Outcome.next.inj (hok.symm.trans ht)
    exact State.Inv.commit s (Bus.fresh_inv hv hm) _

/-- Every instruction keeps the invariant. -/
theorem exec_inv {s t : State} (hs : s.Inv) {i : Instr} (ht : exec i s = .next t) : t.Inv := by
  rcases hc : isConfig i
  · rcases hblk : s.block with _ | b
    · obtain rfl := Host.Outcome.next.inj ((exec_unconfigured hblk hc).symm.trans ht)
      exact hs.of_block_eq rfl
    · obtain ⟨b', r, hexec, hb'⟩ := exec_completesWith
        (fun b d off v hlt hb => b.setWord_inv hb d off v hlt) hblk (hs b hblk) i hc
      obtain rfl := Host.Outcome.next.inj (hexec.symm.trans ht)
      exact State.Inv.commit s hb' r
  · obtain ⟨ram, vid, rfl⟩ := eq_config_of_isConfig hc
    exact exec_config_inv hs ht

/-- Settles O43: a step is idle, rejects a command, or runs an instruction, which keeps the invariant. -/
theorem everyStepKeepsTheInvariant : Obligations.EveryStepKeepsTheInvariant := by
  unfold Obligations.EveryStepKeepsTheInvariant
  intro s t hs ht
  rcases hreq : s.requests with _ | ⟨q, rest⟩
  · obtain rfl := Host.Outcome.next.inj ((step_nil s hreq).symm.trans ht)
    exact hs
  · rw [step_cons s q rest hreq] at ht
    rcases hd : decode q with e | i
    · simp only [hd] at ht
      obtain rfl := Host.Outcome.next.inj ht
      exact hs.of_block_eq rfl
    · simp only [hd] at ht
      exact exec_inv (hs.of_block_eq (t := { s with requests := rest }) rfl) ht

/-- Settles O42: power-on has no configured block. -/
theorem powerOnMeetsTheInvariant : Obligations.PowerOnMeetsTheInvariant := by
  unfold Obligations.PowerOnMeetsTheInvariant
  exact ⟨State.reset_block, fun b h => by cases h⟩

end Sys2Proof.Machine
end

section
/-! Configuration, the reading operations and the image port (43_bus.md; 20_memory.md section 2; 44_image.md). -/

namespace Sys2Proof.Machine

/-! ## Configuration -/

/-- Settles O27: VIDEND answers `cfg`, whose video end is exact by the invariant. -/
theorem videoEndIsAnswered : Obligations.VideoEndIsAnswered := by
  unfold Obligations.VideoEndIsAnswered
  intro s b h hb
  refine ⟨(exec_vidend s).trans (query_of_ok h rfl), ?_⟩
  have hend := hb.endExact
  simp only [Config.videoBase] at hend
  omega

/-- The configuration of a fresh block of a legal video size: its end is the size and 0xFF, with no carry out
(10_state.md R25). -/
theorem Bus.fresh_cfg (ram : Word) {vid : Word} (hv : vid.toNat ≤ 0x100000) :
    (Bus.fresh ram vid).cfg = ⟨ram, vid, vid + 0xFF#32⟩ := by
  have hend : (Bus.fresh ram vid).cfg.videoEnd = vid + 0xFF#32 := by
    apply BitVec.eq_of_toNat_eq
    rw [Bus.fresh_videoEnd_toNat ram hv, BitVec.toNat_add, BitVec.toNat_ofNat]
    omega
  rw [← hend]
  rfl

/-- CONFIG of legal sizes succeeds in any state of the block (43_bus.md R141). -/
theorem exec_config_of_legal {ram vid : Word} (hv : vid.toNat ≤ 0x100000) (hm : ram.toNat ≤ 0xFFEFFF00) (s : State) :
    exec (.config ram vid) s = .next (s.commit (Bus.fresh ram vid) (okResponse 0#32 0#32)) := by
  obtain ⟨hv', -⟩ | ⟨-, hm', -⟩ | ⟨-, -, h⟩ := exec_config_cases ram vid s
  · omega
  · omega
  · exact h

/-- Settles O29: the three outcomes of CONFIG exclude each other by their sizes. -/
theorem configAcceptsExactlyTheLegalSizes : Obligations.ConfigAcceptsExactlyTheLegalSizes := by
  unfold Obligations.ConfigAcceptsExactlyTheLegalSizes
  intro s ram vid
  obtain ⟨hv, h⟩ | ⟨hv, hm, h⟩ | ⟨hv, hm, h⟩ := exec_config_cases ram vid s
  · exact ⟨fun _ _ => by omega, fun _ => h, fun _ _ => by omega⟩
  · exact ⟨fun _ _ => by omega, fun _ => by omega, fun _ _ => h⟩
  · exact ⟨fun _ _ => ⟨_, h, Bus.fresh_cfg ram hv, Bus.fresh_word ram vid⟩, fun _ => by omega, fun _ _ => by omega⟩

/-- Settles O35: the two tables evaluated at every status. -/
theorem statusCodesAreTheTables : Obligations.StatusCodesAreTheTables := by
  unfold Obligations.StatusCodesAreTheTables
  rfl

/-! ## Reading operations -/

/-- An instruction that is a query changes only the response, and gives the same one when it is done again. -/
theorem exec_pure_of_query {i : Instr} {f : Bus → Except Response Response} (hi : ∀ s, exec i s = query f s)
    (s : State) : ∃ r, exec i s = .next { s with response := some r } ∧
      exec i { s with response := some r } = .next { s with response := some r } := by
  obtain ⟨r, hr⟩ := query_uniform f s.block
  exact ⟨r, (hi s).trans (hr s rfl), (hi _).trans (hr { s with response := some r } rfl)⟩

/-- Settles O39: each of the twelve instructions is a query, whose response the block alone decides. -/
theorem readingOperationsArePure : Obligations.ReadingOperationsArePure := by
  unfold Obligations.ReadingOperationsArePure
  intro s a dst i hi
  simp only [List.mem_cons, List.not_mem_nil, or_false] at hi
  obtain rfl | rfl | rfl | rfl | rfl | rfl | rfl | rfl | rfl | rfl | rfl | rfl := hi
  · exact exec_pure_of_query (exec_classify a) s
  · exact exec_pure_of_query (exec_read a) s
  · exact exec_pure_of_query (exec_devrd .reg a) s
  · exact exec_pure_of_query (exec_devrd .mem a) s
  · exact exec_pure_of_query (exec_devrd .io a) s
  · exact exec_pure_of_query (exec_devrd .vid a) s
  · exact exec_pure_of_query exec_devlenReg s
  · exact exec_pure_of_query exec_devlenMem s
  · exact exec_pure_of_query exec_devlenIo s
  · exact exec_pure_of_query exec_devlenVid s
  · exact exec_pure_of_query exec_vidend s
  · exact exec_pure_of_query (exec_imgsave dst) s

/-! ## IMGSAVE -/

/-- The bank's words as bytes, ascending (44_image.md R162). -/
def bankBytes (b : Bus) : List Byte := (List.range b.cfg.ramSize.toNat).flatMap fun j => be32 (b.word .mem j)

/-- IMGSAVE of a legal block, by the host's report (44_image.md R162, R164). -/
theorem saveImage_eq {b : Bus} (hb : b.Inv) (dst : SaveReport) :
    saveImage dst b = match dst with
      | .ioFail => .error (errorResponse .ioError)
      | .stored => .ok { okResponse b.cfg.ramSize 0#32 with out := some (bankBytes b) } := by
  have hsave := saveWords_eq b hb b.cfg.ramSize.toNat 0 (by omega)
  rw [← List.range_eq_range'] at hsave
  unfold saveImage
  rw [hsave]
  cases dst <;> rfl

/-- Settles O32: the save loop reads the whole bank and never fails on a legal block. -/
theorem saveAnswersTheBankBigEndian : Obligations.SaveAnswersTheBankBigEndian := by
  unfold Obligations.SaveAnswersTheBankBigEndian
  intro s b h hb
  exact ⟨(exec_imgsave .stored s).trans (query_of_ok h (saveImage_eq hb .stored)),
    (exec_imgsave .ioFail s).trans (query_of_error h (saveImage_eq hb .ioFail))⟩

/-! ## IMGLOAD -/

/-- The word of a stream that starts at byte `4 * j`, where the stream's bytes past its end count as zero. -/
def streamWord (bytes : List Byte) (j : Nat) : Word :=
  bytes.getD (4 * j) 0#8 ++ bytes.getD (4 * j + 1) 0#8 ++ bytes.getD (4 * j + 2) 0#8 ++ bytes.getD (4 * j + 3) 0#8

/-- Word `j` of a stream is its bytes from `4 * j` on (44_image.md R160). -/
theorem imageWords_getElem? : ∀ (bytes : List Byte) (j : Nat), j < bytes.length / 4 →
    (imageWords bytes)[j]? = some (streamWord bytes j)
  | [], _, h => by simp at h
  | [_], _, h => by simp at h
  | [_, _], _, h => by simp at h
  | [_, _, _], _, h => by simp at h
  | _ :: _ :: _ :: _ :: _, 0, _ => rfl
  | b0 :: b1 :: b2 :: b3 :: rest, j + 1, h => by
    simp only [imageWords, List.getElem?_cons_succ]
    rw [imageWords_getElem? rest j (by simp only [List.length_cons] at h; omega)]
    rfl

/-- A change of bank words alone leaves every word of the other devices. -/
theorem OnlyBankChanged.word_eq {b b' : Bus} (h : OnlyBankChanged b b') {d : Device} (hd : d ≠ .mem) (j : Nat) :
    b'.word d j = b.word d j := by
  obtain ⟨-, hreg, hio, hvid, -⟩ := h
  cases d with
  | reg => simp only [Bus.word, hreg]
  | mem => exact absurd rfl hd
  | io => simp only [Bus.word, hio]
  | vid => simp only [Bus.word, hvid]

/-- IMGLOAD's loop changes words of the bank alone. -/
theorem loadWords_onlyBankChanged {b : Bus} (hb : b.Inv) (ws : List Word) :
    OnlyBankChanged b (loadWords b 0 ws).1 := by
  obtain ⟨hreg, hio, hvid, hcfg, -⟩ := loadWords_frame ws b 0 hb
  refine ⟨hcfg, hreg, hio, hvid, fun j hj => ?_⟩
  rw [loadWords_word ws b 0 hb j, if_neg (by omega)]

/-- A bank word after IMGLOAD's loop over a whole stream: the stream's word, or the old one where the stream has none.
-/
theorem loadWords_bank {b : Bus} (hb : b.Inv) (bytes : List Byte) {j : Nat} (hj : j < b.cfg.ramSize.toNat) :
    (loadWords b 0 (imageWords bytes)).1.word .mem j =
      if j < bytes.length / 4 then streamWord bytes j else b.word .mem j := by
  rw [loadWords_word _ b 0 hb j, if_pos ⟨Nat.zero_le j, hj⟩, Nat.sub_zero]
  by_cases hlt : j < bytes.length / 4
  · rw [if_pos hlt, imageWords_getElem? bytes j hlt, Option.getD_some]
  · rw [if_neg hlt, List.getElem?_eq_none (by rw [imageWords_length]; omega), Option.getD_none]

/-- IMGLOAD of a stream of whole words that fits the bank (44_image.md R163). -/
theorem loadImage_of_fits {b : Bus} (hb : b.Inv) {bytes : List Byte} (h : bytes.length % 4 = 0)
    (hfits : bytes.length / 4 ≤ b.cfg.ramSize.toNat) :
    loadImage b bytes =
      ((loadWords b 0 (imageWords bytes)).1, okResponse (BitVec.ofNat 32 (bytes.length / 4)) 0#32) := by
  rw [loadImage_of_whole b h, loadWords_error _ b 0 hb (Nat.zero_le _), imageWords_length, Nat.zero_add, if_pos hfits]
  rfl

/-- IMGLOAD of a stream of whole words that runs past the bank (44_image.md R163). -/
theorem loadImage_of_past {b : Bus} (hb : b.Inv) {bytes : List Byte} (h : bytes.length % 4 = 0)
    (hpast : b.cfg.ramSize.toNat < bytes.length / 4) :
    loadImage b bytes = ((loadWords b 0 (imageWords bytes)).1, imageBoundsError b b.cfg.ramSize.toNat) := by
  rw [loadImage_of_whole b h, loadWords_error _ b 0 hb (Nat.zero_le _), imageWords_length, Nat.zero_add,
    if_neg (Nat.not_le.mpr hpast)]
  rfl

/-- The error at the end of a legal bank: its address has no 32-bit value exactly for the largest bank
(60_exceptions.md R182). -/
theorem imageBoundsError_end {b : Bus} (hb : b.Inv) :
    imageBoundsError b b.cfg.ramSize.toNat = { errorResponse .memBounds with
      eAddr := if b.cfg.ramSize = 0xFFEFFF00#32 then none else some (0x00100100#32 + b.cfg.ramSize)
      eOff := some b.cfg.ramSize, eLen := some b.cfg.ramSize, eIdx := some b.cfg.ramSize } := by
  have haddr : fit32 (Config.memBase + b.cfg.ramSize.toNat) =
      if b.cfg.ramSize = 0xFFEFFF00#32 then none else some (0x00100100#32 + b.cfg.ramSize) := by
    have hram := hb.ramLegal
    simp only [Config.ramSizeMax] at hram
    by_cases hmax : b.cfg.ramSize = 0xFFEFFF00#32
    · rw [if_pos hmax, hmax]
      rfl
    · have hne : b.cfg.ramSize.toNat ≠ 0xFFEFFF00 := fun he => hmax (BitVec.eq_of_toNat_eq he)
      rw [if_neg hmax, Config.memBase, fit32_of_lt (by omega), BitVec.ofNat_add, BitVec.ofNat_toNat,
        BitVec.setWidth_eq]
  simp only [imageBoundsError, haddr, fit32_toNat]

/-- Settles O33: the host's reports, a part of a word, a stream that fits, and one that runs past the bank. -/
theorem loadStoresTheStreamOrFails : Obligations.LoadStoresTheStreamOrFails := by
  unfold Obligations.LoadStoresTheStreamOrFails
  intro s b bytes h hb
  have hbytes := exec_imgload_bytes bytes s b h
  refine ⟨exec_imgload_notFound s b h, exec_imgload_ioFail s b h, fun hpart => ?_, fun hwhole hfits => ?_,
    fun hwhole hpast => ?_⟩
  · rw [hbytes, loadImage_of_part b hpart, State.commit, ← h]
    rfl
  · rw [hbytes, loadImage_of_fits hb hwhole hfits]
    exact ⟨_, rfl, loadWords_onlyBankChanged hb _, fun j hj => loadWords_bank hb bytes hj⟩
  · rw [hbytes, loadImage_of_past hb hwhole hpast, imageBoundsError_end hb]
    exact ⟨_, rfl, loadWords_onlyBankChanged hb _, fun j hj =>
      (loadWords_bank hb bytes hj).trans (if_pos (Nat.lt_trans hj hpast))⟩

/-! ## Saving and loading again -/

/-- The words of a stream made of words are those words. -/
theorem imageWords_flatMap_be32 (ws : List Word) : imageWords (ws.flatMap be32) = ws := by
  induction ws with
  | nil => rfl
  | cons w ws ih =>
    simp only [List.flatMap_cons, be32, List.cons_append, List.nil_append, imageWords, unBE32, joinBytes_splitBytes]
    rw [ih]

theorem length_flatMap_be32 (ws : List Word) : (ws.flatMap be32).length = 4 * ws.length := by
  induction ws with
  | nil => rfl
  | cons w ws ih =>
    simp only [List.flatMap_cons, List.length_append, ih, List.length_cons, be32, List.length_nil]
    omega

/-- The saved bytes are the bank's words, four bytes each. -/
theorem bankBytes_eq (b : Bus) :
    bankBytes b = ((List.range b.cfg.ramSize.toNat).map (b.word .mem)).flatMap be32 := by
  rw [List.flatMap_map]
  rfl

theorem bankBytes_length (b : Bus) : (bankBytes b).length = 4 * b.cfg.ramSize.toNat := by
  rw [bankBytes_eq, length_flatMap_be32, List.length_map, List.length_range]

/-- The words of a saved bank, loaded into a block with a bank of the same size, are the bank's words. -/
theorem loadWords_bankBytes {b c : Bus} (hc : c.Inv) (hsize : c.cfg.ramSize = b.cfg.ramSize) {j : Nat}
    (hj : j < b.cfg.ramSize.toNat) : (loadWords c 0 (imageWords (bankBytes b))).1.word .mem j = b.word .mem j := by
  rw [loadWords_word _ c 0 hc j, if_pos ⟨Nat.zero_le j, hsize ▸ hj⟩, bankBytes_eq, imageWords_flatMap_be32,
    Nat.sub_zero, List.getElem?_map, List.getElem?_range hj]
  rfl

/-- A saved bank loads into a fresh block of the same sizes without an error. -/
theorem loadImage_bankBytes {b : Bus} (hb : b.Inv) :
    loadImage (Bus.fresh b.cfg.ramSize b.cfg.videoSize) (bankBytes b) =
      ((loadWords (Bus.fresh b.cfg.ramSize b.cfg.videoSize) 0 (imageWords (bankBytes b))).1,
        okResponse b.cfg.ramSize 0#32) := by
  have hwords : (bankBytes b).length / 4 = b.cfg.ramSize.toNat := by have := bankBytes_length b; omega
  rw [loadImage_of_fits (Bus.fresh_inv hb.videoLegal hb.ramLegal) (by have := bankBytes_length b; omega)
    (by rw [hwords]; exact Nat.le_refl _), hwords, BitVec.ofNat_toNat, BitVec.setWidth_eq]

/-- Settles O34: the saved stream fits the fresh bank exactly, and its words are the saved bank's. -/
theorem imageRoundTripRestoresTheBank : Obligations.ImageRoundTripRestoresTheBank := by
  unfold Obligations.ImageRoundTripRestoresTheBank
  intro s q b h hb
  have hfresh : (Bus.fresh b.cfg.ramSize b.cfg.videoSize).Inv := Bus.fresh_inv hb.videoLegal hb.ramLegal
  have hsave : exec (.imgsave .stored) s = .next (s.reply _) := query_of_ok h (saveImage_eq hb .stored)
  have hconfig := exec_config_of_legal hb.videoLegal hb.ramLegal q
  have hload := exec_imgload_bytes (bankBytes b) _ _ (q.commit_block (Bus.fresh b.cfg.ramSize b.cfg.videoSize)
    (okResponse 0#32 0#32))
  rw [loadImage_bankBytes hb] at hload
  refine ⟨bankBytes b, _, _, _, hsave, bankBytes_length b, hconfig, hload, rfl, rfl, fun j hj => ?_, fun d j hd => ?_⟩
  · exact loadWords_bankBytes (b := b) hfresh rfl hj
  · exact ((loadWords_onlyBankChanged hfresh _).word_eq hd j).trans (Bus.fresh_word _ _ d j)

end Sys2Proof.Machine
end

section
/-! What every instruction does to every device word, and sequential consistency (10_state.md section 4; 20_memory.md
sections 4 and 5). -/

namespace Sys2Proof.Machine

/-! ## The words an instruction writes -/

theorem wordWritten_of_isAnswer (b : Bus) (d : Device) (off : Nat) {i : Instr} (hi : isAnswer i = true) :
    wordWritten b d off i = none := by
  cases i with
  | classify | devlenReg | devlenMem | devlenIo | devlenVid | vidend => rfl
  | read | write | devrdReg | devrdMem | devrdIo | devrdVid | devwrReg | devwrMem | devwrIo | devwrVid | config
  | imgsave | imgload => cases hi

@[simp] theorem wordWritten_devrd (b : Bus) (d d' : Device) (off : Nat) (o : Word) :
    wordWritten b d off (devrd d' o) = none := by cases d' <;> rfl

@[simp] theorem wordWritten_devwr (b : Bus) (d d' : Device) (off : Nat) (o v : Word) :
    wordWritten b d off (devwr d' o v) = if d' = d ∧ o.toNat = off ∧ off < b.len d then some v else none := by
  cases d' <;> exact if_congr (and_congr_left' eq_comm) rfl rfl

/-- The length of a device depends on `cfg` alone. -/
theorem Bus.len_congr {b b' : Bus} (h : b'.cfg = b.cfg) (d : Device) : b'.len d = b.len d := by
  cases d <;> simp [h]

/-- What an instruction writes to a word depends on the block's lengths alone. -/
theorem wordWritten_congr {b b' : Bus} (h : b'.cfg = b.cfg) (d : Device) (off : Nat) (i : Instr) :
    wordWritten b' d off i = wordWritten b d off i := by
  simp only [wordWritten, Bus.len_congr h]

theorem lastWritten_congr {b b' : Bus} (h : b'.cfg = b.cfg) (d : Device) (off : Nat) (is : List Instr) :
    ∀ w, lastWritten b' d off is w = lastWritten b d off is w := by
  induction is with
  | nil => exact fun w => rfl
  | cons i is ih =>
    intro w
    rw [lastWritten, lastWritten, wordWritten_congr h, ih]

/-! ## The effect of one instruction -/

/-- The instruction completes on the block `b`, keeps `cfg` and the pending requests, and leaves in every device word
what it writes there, or the old value. -/
def HasEffect (i : Instr) (s : State) (b : Bus) : Prop :=
  ∃ b' r, exec i s = .next { s with block := .configured b', response := some r } ∧ b'.cfg = b.cfg ∧
    ∀ d off, b'.word d off = (wordWritten b d off i).getD (b.word d off)

/-- An instruction that sets one word inside a device has the effect of one that writes that word. -/
theorem hasEffect_of_setWord {s : State} {b : Bus} (hb : b.Inv) {i : Instr} {d : Device} {off : Nat} {v : Word}
    {r : Response} (hlt : off < b.len d) (hexec : exec i s = .next (s.commit (b.setWord d off v) r))
    (hw : ∀ d' off', wordWritten b d' off' i = if d = d' ∧ off = off' ∧ off' < b.len d' then some v else none) :
    HasEffect i s b := by
  refine ⟨_, r, hexec, b.setWord_cfg d off v, fun d' off' => ?_⟩
  rw [b.word_setWord hb d off v hlt, hw]
  by_cases he : d' = d ∧ off' = off
  · obtain ⟨rfl, rfl⟩ := he
    rw [if_pos ⟨rfl, rfl⟩, if_pos ⟨rfl, rfl, hlt⟩, Option.getD_some]
  · rw [if_neg he, if_neg fun ⟨hd, hoff, _⟩ => he ⟨hd.symm, hoff.symm⟩, Option.getD_none]

section
variable {s : State} {b : Bus} (h : s.block = .configured b)
include h

/-- An instruction that only replies has the effect of one that writes no word. -/
theorem hasEffect_of_reply {i : Instr} {r : Response} (hexec : exec i s = .next (s.reply r))
    (hw : ∀ d off, wordWritten b d off i = none) : HasEffect i s b := by
  refine ⟨b, r, by rw [hexec, ← h]; rfl, rfl, fun d off => ?_⟩
  rw [hw, Option.getD_none]

theorem hasEffect_of_query {i : Instr} {f : Bus → Except Response Response} (hexec : exec i s = query f s)
    (hw : ∀ d off, wordWritten b d off i = none) : HasEffect i s b := by
  obtain ⟨r, hr⟩ := query_reply f s
  exact hasEffect_of_reply h (hexec.trans hr) hw

theorem write_hasEffect (hb : b.Inv) (a v : Word) : HasEffect (.write a v) s b := by
  by_cases hin : ∃ d, (classify a).1.device = some d ∧ (classify a).2 < b.len d
  · obtain ⟨d, hd, hlt⟩ := hin
    refine hasEffect_of_setWord hb hlt (exec_write_of_lt h a v hd hlt) fun d' off' => ?_
    simp only [wordWritten, hd, Option.some.injEq]
  · have hno : ∀ d, (classify a).1.device = some d → b.len d ≤ (classify a).2 :=
      fun d hd => Nat.le_of_not_lt fun hlt => hin ⟨d, hd, hlt⟩
    obtain ⟨e, he⟩ := exec_write_of_no_word h a v hno
    refine hasEffect_of_reply h he fun d off => if_neg ?_
    rintro ⟨hd, rfl, hlt⟩
    exact hin ⟨d, hd, hlt⟩

theorem devwr_hasEffect (hb : b.Inv) (d : Device) (o v : Word) : HasEffect (devwr d o v) s b := by
  rcases Nat.lt_or_ge o.toNat (b.len d) with hlt | hle
  · exact hasEffect_of_setWord hb hlt (exec_devwr_of_lt h v o hlt) fun d' off' => wordWritten_devwr b d' d off' o v
  · refine hasEffect_of_reply h (exec_devwr_past h v o hle) fun d' off' => ?_
    rw [wordWritten_devwr]
    refine if_neg ?_
    rintro ⟨rfl, rfl, hlt⟩
    exact absurd hlt (Nat.not_lt.mpr hle)

theorem imgload_hasEffect (hb : b.Inv) (src : ImageSource) : HasEffect (.imgload src) s b := by
  cases src with
  | notFound => exact hasEffect_of_reply h (exec_imgload_notFound s b h) fun _ _ => rfl
  | ioFail => exact hasEffect_of_reply h (exec_imgload_ioFail s b h) fun _ _ => rfl
  | bytes bytes =>
    by_cases hwhole : bytes.length % 4 = 0
    · have hexec := exec_imgload_bytes bytes s b h
      rw [loadImage_of_whole b hwhole] at hexec
      have hframe := loadWords_onlyBankChanged hb (imageWords bytes)
      refine ⟨_, _, hexec, hframe.1, fun d off => ?_⟩
      by_cases hd : d = .mem
      · subst hd
        rw [loadWords_word _ b 0 hb off, Nat.sub_zero, wordWritten]
        by_cases hoff : off < b.cfg.ramSize.toNat
        · rw [if_pos ⟨Nat.zero_le off, hoff⟩, if_pos ⟨rfl, hoff, hwhole⟩]
        · rw [if_neg fun hc => hoff hc.2, if_neg fun hc => hoff hc.2.1, Option.getD_none]
      · rw [hframe.word_eq hd, wordWritten, if_neg (fun hc => hd hc.1), Option.getD_none]
    · refine hasEffect_of_reply (r := imageLengthError bytes.length) h ?_ fun d off => if_neg fun hc => hwhole hc.2.2
      rw [exec_imgload_bytes bytes s b h, loadImage_of_part b hwhole, State.commit, ← h]
      rfl

end

/-- Settles O40: an answer, a read and a save only reply; a write sets one word or none; a load sets the stream's
words. -/
theorem everyInstructionsEffectOnEveryWord : Obligations.EveryInstructionsEffectOnEveryWord := by
  unfold Obligations.EveryInstructionsEffectOnEveryWord
  intro s b i h hb hc
  cases i using instr_shapes with
  | answer i hi =>
    obtain ⟨r0, r1, hexec⟩ := exec_answer hi
    exact hasEffect_of_query h (hexec s) fun d off => wordWritten_of_isAnswer b d off hi
  | read a => exact hasEffect_of_query h (exec_read a s) fun _ _ => rfl
  | write a v => exact write_hasEffect h hb a v
  | devrd d off => exact hasEffect_of_query h (exec_devrd d off s) fun d' off' => wordWritten_devrd b d' d off' off
  | devwr d off v => exact devwr_hasEffect h hb d off v
  | config ram vid => cases hc
  | imgsave dst => exact hasEffect_of_query h (exec_imgsave dst s) fun _ _ => rfl
  | imgload src => exact imgload_hasEffect h hb src

/-! ## Runs -/

/-- A run of instructions none of which is CONFIG completes, keeps the invariant and `cfg`, and leaves in every word
the last value written to it (20_memory.md R68). -/
theorem runInstrs_lastWritten (is : List Instr) : ∀ (s : State) (b : Bus), s.block = .configured b → b.Inv →
    (∀ i ∈ is, isConfig i = false) →
    ∃ t b', runInstrs is s = .next t ∧ t.block = .configured b' ∧ b'.cfg = b.cfg ∧
      ∀ d off, b'.word d off = lastWritten b d off is (b.word d off) := by
  induction is with
  | nil => exact fun s b h _ _ => ⟨s, b, rfl, h, rfl, fun d off => rfl⟩
  | cons i is ih =>
    intro s b h hb hc
    obtain ⟨b₁, r, hexec, hcfg₁, hword₁⟩ :=
      everyInstructionsEffectOnEveryWord s b i h hb (hc i List.mem_cons_self)
    have hinv : State.Inv _ := exec_inv (fun b' h' => Block.configured.inj (h.symm.trans h') ▸ hb) hexec
    obtain ⟨t, b', hrun, hblk, hcfg, hword⟩ :=
      ih { s with block := .configured b₁, response := some r } b₁ rfl (hinv b₁ rfl)
        fun j hj => hc j (List.mem_cons_of_mem i hj)
    refine ⟨t, b', by rw [runInstrs, hexec]; exact hrun, hblk, hcfg.trans hcfg₁, fun d off => ?_⟩
    rw [hword, hword₁, lastWritten_congr hcfg₁, lastWritten]

/-- Settles O41: the run starts from the fresh block, whose words are zero, and DEVRD and READ reach the words it
leaves. -/
theorem everyWordHoldsItsLastWrite : Obligations.EveryWordHoldsItsLastWrite := by
  unfold Obligations.EveryWordHoldsItsLastWrite
  intro s s1 r1 ram vid is hexec hr hok hc
  obtain ⟨hv, hm, rfl⟩ := exec_config_ok hexec hr hok
  obtain ⟨t, b, hrun, hblk, hcfg, hword⟩ :=
    runInstrs_lastWritten is _ (Bus.fresh ram vid) (State.commit_block ..) (Bus.fresh_inv hv hm) hc
  have hlast : ∀ d off, b.word d off = lastWritten b d off is 0#32 := fun d off => by
    rw [hword, lastWritten_congr hcfg, Bus.fresh_word]
  refine ⟨t, b, hrun, hblk, by rw [hcfg]; rfl, by rw [hcfg]; rfl, fun d off hlt => ?_, fun d a hd hlt => ?_⟩
  · rw [← hlast]
    exact exec_devrd_of_lt hblk off hlt
  · rw [← hlast]
    exact exec_read_of_lt hblk a hd hlt

/-! ## Registers -/

/-- Two register files with the same words are one. -/
theorem Bus.reg_eq_of_word {b b' : Bus} (h : ∀ off, b'.word .reg off = b.word .reg off) : b'.reg = b.reg := by
  ext i hi : 1
  have hw := h i
  simpa only [Bus.word, Vector.getElem?_eq_getElem hi, Option.getD_some] using hw

/-- The instructions that write a register word: a WRITE to its address and a DEVWR.REG at its index (10_state.md R36).
-/
theorem eq_of_wordWritten_reg {b : Bus} {i : Instr} {off : Nat} {v : Word} (h : wordWritten b .reg off i = some v) :
    (∃ a, i = .write a v ∧ a.toNat = off ∧ off ≤ 0x1D) ∨ ∃ o, i = .devwrReg o v ∧ o.toNat = off := by
  cases i using instr_shapes with
  | answer i hi => cases (wordWritten_of_isAnswer b .reg off hi).symm.trans h
  | read a => cases h
  | write a w =>
    obtain ⟨⟨hd, hoff, -⟩, hw⟩ := (Option.ite_none_right_eq_some).mp h
    obtain rfl := Option.some.inj hw
    have hbase := base_add_classify_offset hd
    have hlast := ((classify_device_iff a .reg).mp hd).2
    simp only [Device.base, Device.last] at hbase hlast
    exact .inl ⟨a, rfl, by omega, by omega⟩
  | devrd d o => cases (wordWritten_devrd b .reg d off o).symm.trans h
  | devwr d o w =>
    rw [wordWritten_devwr] at h
    obtain ⟨⟨rfl, hoff, -⟩, hw⟩ := (Option.ite_none_right_eq_some).mp h
    obtain rfl := Option.some.inj hw
    exact .inr ⟨o, rfl, hoff⟩
  | config ram vid => cases h
  | imgsave dst => cases h
  | imgload src =>
    cases src with
    | bytes bytes => simp [wordWritten] at h
    | notFound => cases h
    | ioFail => cases h

/-- An address of the Register kind is the index of its word (20_memory.md R51). -/
theorem classify_of_le_regLast {a : Word} (ha : a.toNat ≤ 0x1D) :
    (classify a).1.device = some .reg ∧ (classify a).2 = a.toNat := by
  have hd : (classify a).1.device = some .reg := (classify_device_iff a .reg).mpr ⟨Nat.zero_le _, ha⟩
  exact ⟨hd, (Nat.zero_add _).symm.trans (base_add_classify_offset hd)⟩

/-- READ of a Register address (43_bus.md R143). -/
theorem exec_read_register {s : State} {b : Bus} (h : s.block = .configured b) {a : Word} (ha : a.toNat ≤ 0x1D) :
    exec (.read a) s = .next (s.reply (okResponse (b.word .reg a.toNat) 0#32)) := by
  obtain ⟨hd, hoff⟩ := classify_of_le_regLast ha
  rw [← hoff]
  exact exec_read_of_lt h a hd (by rw [hoff, Bus.len_reg]; omega)

/-- WRITE of a Register address (43_bus.md R144). -/
theorem write_register_storesWord {s : State} {b : Bus} (h : s.block = .configured b) (hb : b.Inv) {a : Word}
    (ha : a.toNat ≤ 0x1D) (v : Word) : StoresWord (.write a v) s b .reg a.toNat v := by
  obtain ⟨hd, hoff⟩ := classify_of_le_regLast ha
  rw [← hoff]
  exact write_storesWord h hb a v .reg hd (by rw [hoff, Bus.len_reg]; omega)

/-- Settles O24: the four accesses reach the words, and an instruction that writes no register word keeps the file. -/
theorem registersAreReachedAndNotWrittenOtherwise : Obligations.RegistersAreReachedAndNotWrittenOtherwise := by
  unfold Obligations.RegistersAreReachedAndNotWrittenOtherwise
  intro s b h hb
  refine ⟨fun off v hlt => ⟨exec_devrd_of_lt (d := .reg) h off hlt, devwr_storesWord h hb .reg off v hlt⟩,
    fun a v ha => ⟨exec_read_register h ha, write_register_storesWord h hb ha v⟩, ?_⟩
  intro i t ht hc hwrite hdevwr
  obtain ⟨b', r, hexec, -, hword⟩ := everyInstructionsEffectOnEveryWord s b i h hb hc
  obtain rfl := Host.Outcome.next.inj (hexec.symm.trans ht)
  refine ⟨b', rfl, Bus.reg_eq_of_word fun off => ?_⟩
  rw [hword]
  rcases hw : wordWritten b .reg off i with _ | v
  · rfl
  · rcases eq_of_wordWritten_reg hw with ⟨a, rfl, hoff, hle⟩ | ⟨o, rfl, -⟩
    · have := hwrite a v rfl
      omega
    · exact absurd rfl (hdevwr o v)

theorem specialOffset_le (r : SpecialReg) : (specialOffset r).toNat ≤ 0x1D := by
  cases r <;> decide

/-- Settles O25: a special register is a register word with an address, and SETR and GETR are its device accesses. -/
theorem specialRegistersAreStorageOnly : Obligations.SpecialRegistersAreStorageOnly := by
  unfold Obligations.SpecialRegistersAreStorageOnly
  refine ⟨by decide, fun s b r v h hb => ?_⟩
  have hle := specialOffset_le r
  have hlt : (specialOffset r).toNat < b.len .reg := by rw [Bus.len_reg]; omega
  exact ⟨devwr_storesWord h hb .reg (specialOffset r) v hlt, write_register_storesWord h hb hle v,
    exec_devrd_of_lt (d := .reg) h (specialOffset r) hlt⟩

/-- Settles O26: an instruction but CONFIG that changes the word at index 0x10 writes it. -/
theorem programCounterChangesOnlyByNamedWrites : Obligations.ProgramCounterChangesOnlyByNamedWrites := by
  unfold Obligations.ProgramCounterChangesOnlyByNamedWrites
  intro s t b b' i h hb ht hblk hne
  rcases hc : isConfig i with _ | _
  · obtain ⟨b₁, r, hexec, -, hword⟩ := everyInstructionsEffectOnEveryWord s b i h hb hc
    obtain rfl := Host.Outcome.next.inj (hexec.symm.trans ht)
    obtain rfl := Block.configured.inj hblk
    rcases hw : wordWritten b .reg 0x10 i with _ | v
    · exact absurd ((hword .reg 0x10).trans (by rw [hw]; rfl)) hne
    · rcases eq_of_wordWritten_reg hw with ⟨a, rfl, ha, -⟩ | ⟨o, rfl, ho⟩
      · exact .inl ⟨v, by rw [BitVec.eq_of_toNat_eq (y := 0x10#32) ha]⟩
      · exact .inr (.inl ⟨v, by rw [BitVec.eq_of_toNat_eq (y := 0x10#32) ho]⟩)
  · exact .inr (.inr rfl)

end Sys2Proof.Machine
end

section
/-! Errors: which instruction raises which, with which fields, and what a failing request leaves (60_exceptions.md
section 1). -/

namespace Sys2Proof.Machine

/-- `Fails s i r blk`: on the machine `s`, whose block is reachable, instruction `i` may end in the error `r` with the
block `blk`, by the rows of the error table (60_exceptions.md R181, R182). -/
inductive Fails (s : State) : Instr → Response → Block → Prop
  | notConfigured {i : Instr} (hu : s.block = .unconfigured) (hc : isConfig i = false) :
    Fails s i (errorResponse .notConfigured) s.block
  | read {b : Bus} {a : Word} {e : Response} (h : s.block = .configured b) (he : BusError b a e) :
    Fails s (.read a) e s.block
  | write {b : Bus} {a v : Word} {e : Response} (h : s.block = .configured b) (he : BusError b a e) :
    Fails s (.write a v) e s.block
  | ofDevrd {b : Bus} {d : Device} {off : Word} (h : s.block = .configured b) :
    Fails s (devrd d off) (boundsError off.toNat (b.len d)) s.block
  | ofDevwr {b : Bus} {d : Device} {off v : Word} (h : s.block = .configured b) :
    Fails s (devwr d off v) (boundsError off.toNat (b.len d)) s.block
  | configVideo {ram vid : Word} : Fails s (.config ram vid) (configVideoError vid) s.block
  | configRam {ram vid : Word} : Fails s (.config ram vid) (configRamError ram) s.block
  | saveFailed {b : Bus} (h : s.block = .configured b) : Fails s (.imgsave .ioFail) (errorResponse .ioError) s.block
  | loadFailed {b : Bus} (h : s.block = .configured b) : Fails s (.imgload .ioFail) (errorResponse .ioError) s.block
  | loadNotFound {b : Bus} (h : s.block = .configured b) :
    Fails s (.imgload .notFound) (errorResponse .resourceNotFound) s.block
  | imageLength {b : Bus} {bytes : List Byte} (h : s.block = .configured b) :
    Fails s (.imgload (.bytes bytes)) (imageLengthError bytes.length) s.block
  | pastBank {b : Bus} {bytes : List Byte} (h : s.block = .configured b) (hb : b.Inv)
    (hpast : b.cfg.ramSize.toNat < bytes.length / 4) :
    Fails s (.imgload (.bytes bytes)) (imageBoundsError b b.cfg.ramSize.toNat)
      (.configured (loadWords b 0 (imageWords bytes)).1)

/-! ## Every error is one of these -/

/-- The outcome, if it is an error, is one of `Fails`. -/
def ErrorsListed (s : State) (i : Instr) (o : Host.Outcome State Fault Refusal) : Prop :=
  ∀ t r, o = .next t → t.response = some r → r.status ≠ .ok → Fails s i r t.block

theorem reply_errorsListed {s : State} {i : Instr} {e : Response} (h : Fails s i e s.block) :
    ErrorsListed s i (.next (s.reply e)) := by
  intro t r ht hr _
  cases ht
  cases hr
  exact h

theorem ok_errorsListed {s t : State} {i : Instr} {r : Response} (hr : t.response = some r) (hok : r.status = .ok) :
    ErrorsListed s i (.next t) := by
  intro t' r' ht' hr' hne
  cases ht'
  cases hr.symm.trans hr'
  exact absurd hok hne

section
variable {s : State} {b : Bus} (h : s.block = .configured b)
include h

theorem wordQuery_errorsListed {i : Instr} {f : Bus → Except Response Word}
    (hf : ∀ e, f b = .error e → Fails s i e s.block) :
    ErrorsListed s i (query (fun b => wordResponse (f b)) s) := by
  rcases wordResponse_cases (f b) with ⟨e, he, hr⟩ | ⟨w, -, hr⟩
  · rw [query_of_error h hr]
    exact reply_errorsListed (hf e he)
  · rw [query_of_ok h hr]
    exact ok_errorsListed rfl rfl

theorem update_errorsListed {i : Instr} {f : Bus → Except Response Bus}
    (hf : ∀ e, f b = .error e → Fails s i e s.block) : ErrorsListed s i (update f s) := by
  rcases hw : f b with e | b'
  · rw [update_of_error h hw]
    exact reply_errorsListed (hf e hw)
  · rw [update_of_ok h hw]
    exact ok_errorsListed rfl rfl

theorem imgsave_errorsListed (hb : b.Inv) (dst : SaveReport) :
    ErrorsListed s (.imgsave dst) (exec (.imgsave dst) s) := by
  rw [exec_imgsave]
  cases dst with
  | stored =>
    rw [query_of_ok h (saveImage_eq hb .stored)]
    exact ok_errorsListed rfl rfl
  | ioFail =>
    rw [query_of_error h (saveImage_eq hb .ioFail)]
    exact reply_errorsListed (.saveFailed h)

theorem imgload_errorsListed (hb : b.Inv) (src : ImageSource) :
    ErrorsListed s (.imgload src) (exec (.imgload src) s) := by
  cases src with
  | notFound => exact exec_imgload_notFound s b h ▸ reply_errorsListed (.loadNotFound h)
  | ioFail => exact exec_imgload_ioFail s b h ▸ reply_errorsListed (.loadFailed h)
  | bytes bytes =>
    rw [exec_imgload_bytes bytes s b h]
    by_cases hwhole : bytes.length % 4 = 0
    · rcases Nat.lt_or_ge b.cfg.ramSize.toNat (bytes.length / 4) with hpast | hfits
      · rw [loadImage_of_past hb hwhole hpast]
        intro t r ht hr _
        cases ht
        cases hr
        exact .pastBank h hb hpast
      · rw [loadImage_of_fits hb hwhole hfits]
        exact ok_errorsListed rfl rfl
    · rw [loadImage_of_part b hwhole, State.commit, ← h]
      exact reply_errorsListed (.imageLength h)

end

theorem config_errorsListed (ram vid : Word) (s : State) :
    ErrorsListed s (.config ram vid) (exec (.config ram vid) s) := by
  rcases exec_config_cases ram vid s with ⟨-, h⟩ | ⟨-, -, h⟩ | ⟨-, -, h⟩
  · exact h ▸ reply_errorsListed .configVideo
  · exact h ▸ reply_errorsListed .configRam
  · exact h ▸ ok_errorsListed rfl rfl

/-- Every error an instruction ends in, from a state with the invariant, is listed. -/
theorem exec_errorsListed {s : State} (hs : s.Inv) (i : Instr) : ErrorsListed s i (exec i s) := by
  rcases hc : isConfig i
  · rcases hblk : s.block with _ | b
    · exact exec_unconfigured hblk hc ▸ reply_errorsListed (.notConfigured hblk hc)
    · cases i using instr_shapes with
      | answer i hi =>
        obtain ⟨r0, r1, hexec⟩ := exec_answer hi
        rw [hexec s, query_of_ok hblk rfl]
        exact ok_errorsListed rfl rfl
      | read a => exact wordQuery_errorsListed hblk fun e he => .read hblk (busRead_error he)
      | write a v => exact update_errorsListed hblk fun e he => .write hblk (busWrite_error he)
      | devrd d off =>
        exact exec_devrd d off s ▸ wordQuery_errorsListed hblk fun e he => devRead_error he ▸ .ofDevrd hblk
      | devwr d off v =>
        exact exec_devwr d off v s ▸ update_errorsListed hblk fun e he => devWrite_error he ▸ .ofDevwr hblk
      | config ram vid => cases hc
      | imgsave dst => exact imgsave_errorsListed hblk (hs b hblk) dst
      | imgload src => exact imgload_errorsListed hblk (hs b hblk) src
  · obtain ⟨ram, vid, rfl⟩ := eq_config_of_isConfig hc
    exact config_errorsListed ram vid s

/-! ## What a failing request leaves -/

/-- An error leaves the block, unless it is an IMGLOAD's that ran past the bank. -/
theorem Fails.block_eq {s : State} {i : Instr} {r : Response} {blk : Block} (hf : Fails s i r blk)
    (hnot : ¬ (r.status = .memBounds ∧ ∃ bytes, i = .imgload (.bytes bytes))) : blk = s.block := by
  cases hf with
  | pastBank => exact absurd ⟨rfl, _, rfl⟩ hnot
  | notConfigured | read | write | ofDevrd | ofDevwr | configVideo | configRam | saveFailed | loadFailed | loadNotFound
  | imageLength => rfl

/-- An IMGLOAD's MEM_BOUNDS leaves the stream's words in the whole bank (44_image.md R163). -/
theorem Fails.bank_written {s : State} {i : Instr} {bytes : List Byte} {r : Response} {blk : Block} {b : Bus}
    (hf : Fails s i r blk) (hi : i = .imgload (.bytes bytes)) (hr : r.status = .memBounds)
    (h : s.block = .configured b) :
    ∃ b', blk = .configured b' ∧ OnlyBankChanged b b' ∧
      ∀ j, j < b.cfg.ramSize.toNat → (imageWords bytes)[j]? = some (b'.word .mem j) := by
  cases hf with
  | pastBank h' hb hpast =>
    obtain rfl := Block.configured.inj (h.symm.trans h')
    cases hi
    refine ⟨_, rfl, loadWords_onlyBankChanged hb _, fun j hj => ?_⟩
    have hlt := Nat.lt_trans hj hpast
    rw [loadWords_bank hb bytes hj, if_pos hlt, imageWords_getElem? bytes j hlt]
  | read | write => cases hi
  | @ofDevrd _ d => cases d <;> cases hi
  | @ofDevwr _ d => cases d <;> cases hi
  | notConfigured | configVideo | configRam | saveFailed | loadFailed | loadNotFound | imageLength => cases hr

/-- Settles O36: a rejected command only replies, and an instruction's error is one of the listed ones. -/
theorem failingRequestHasNoEffect : Obligations.FailingRequestHasNoEffect := by
  unfold Obligations.FailingRequestHasNoEffect
  intro s t q rest r hs hreq ht hr hne
  rcases hd : decode q with e | i
  · obtain rfl := Host.Outcome.next.inj ((step_of_decode_error hreq hd).symm.trans ht)
    exact ⟨fun _ => rfl, fun bytes b _ hdec => by cases hdec⟩
  · have hexec := (stepRunsTheDecodedInstruction s q rest i hreq hd).symm.trans ht
    have hf := exec_errorsListed (s := { s with requests := rest }) (hs.of_block_eq rfl) i t r hexec hr hne
    refine ⟨fun hnot => hf.block_eq fun ⟨hst, bytes, hi⟩ => hnot ⟨hst, bytes, by rw [hi]⟩, ?_⟩
    rintro bytes b hst hdec h
    cases hdec
    exact hf.bank_written rfl hst h

/-! ## Which errors an instruction raises -/

/-- The rows of the error table by status: what instruction may raise it (60_exceptions.md R181). -/
def Raises (i : Instr) : Status → Prop
  | .ok => True
  | .memBounds => (∃ a, i = .read a) ∨ (∃ a v, i = .write a v) ∨ (∃ d off, i = devrd d off) ∨
      (∃ d off v, i = devwr d off v) ∨ ∃ bytes, i = .imgload (.bytes bytes)
  | .memOpcode | .memReserved => (∃ a, i = .read a) ∨ ∃ a v, i = .write a v
  | .notConfigured => isConfig i = false
  | .invalidCommand => False
  | .configVideo | .configRam => isConfig i = true
  | .imageLength => ∃ bytes, i = .imgload (.bytes bytes)
  | .ioError => i = .imgload .ioFail ∨ i = .imgsave .ioFail
  | .resourceNotFound => i = .imgload .notFound

theorem Fails.raises {s : State} {i : Instr} {r : Response} {blk : Block} (hf : Fails s i r blk) :
    Raises i r.status := by
  cases hf with
  | notConfigured hu hc => exact hc
  | @read _ a _ _ he =>
    cases he with
    | past | opcode | reserved => exact .inl ⟨a, rfl⟩
  | @write _ a v _ _ he =>
    cases he with
    | past => exact .inr (.inl ⟨a, v, rfl⟩)
    | opcode | reserved => exact .inr ⟨a, v, rfl⟩
  | @ofDevrd _ d off => exact .inr (.inr (.inl ⟨d, off, rfl⟩))
  | @ofDevwr _ d off v => exact .inr (.inr (.inr (.inl ⟨d, off, v, rfl⟩)))
  | configVideo | configRam => exact rfl
  | saveFailed => exact .inr rfl
  | loadFailed => exact .inl rfl
  | loadNotFound => exact rfl
  | @imageLength _ bytes => exact ⟨bytes, rfl⟩
  | @pastBank _ bytes => exact .inr (.inr (.inr (.inr ⟨bytes, rfl⟩)))

/-- NOT_CONFIGURED is raised by an unconfigured block alone (60_exceptions.md R181). -/
theorem Fails.unconfigured {s : State} {i : Instr} {r : Response} {blk : Block} (hf : Fails s i r blk)
    (hr : r.status = .notConfigured) : s.block = .unconfigured := by
  cases hf with
  | notConfigured hu => exact hu
  | read _ he | write _ he => cases he <;> cases hr
  | ofDevrd | ofDevwr | configVideo | configRam | saveFailed | loadFailed | loadNotFound | imageLength | pastBank =>
    cases hr

/-- The status an instruction answers, from a state with the invariant, is listed for it. -/
theorem exec_raises {s t : State} {i : Instr} {r : Response} (hs : s.Inv) (ht : exec i s = .next t)
    (hr : t.response = some r) : Raises i r.status := by
  by_cases hok : r.status = .ok
  · rw [hok]
    trivial
  · exact (exec_errorsListed hs i t r ht hr hok).raises

/-- NOT_CONFIGURED is answered exactly for an instruction but CONFIG on an unconfigured block (60_exceptions.md R183).
-/
theorem exec_notConfigured_iff {s t : State} {i : Instr} {r : Response} (hs : s.Inv) (ht : exec i s = .next t)
    (hr : t.response = some r) : r.status = .notConfigured ↔ s.block = .unconfigured ∧ isConfig i = false := by
  constructor
  · intro hst
    have hf := exec_errorsListed hs i t r ht hr (by rw [hst]; nofun)
    have hraises := hf.raises
    rw [hst] at hraises
    exact ⟨hf.unconfigured hst, hraises⟩
  · rintro ⟨hu, hc⟩
    cases (exec_unconfigured hu hc).symm.trans ht
    cases hr
    rfl

/-- Settles O37: the status answered is listed for the instruction. -/
theorem onlyListedOperationsRaiseEachError : Obligations.OnlyListedOperationsRaiseEachError := by
  unfold Obligations.OnlyListedOperationsRaiseEachError
  intro s t i r hs ht hr
  have hraises := exec_raises hs ht hr
  refine ⟨fun hst => ?_, fun hst => ?_, fun hst => ?_, exec_notConfigured_iff hs ht hr, fun hst => ?_, fun hst => ?_,
    fun hst => ?_, fun hst => ?_⟩
  · rwa [hst] at hraises
  · rcases hst with hst | hst <;> rwa [hst] at hraises
  · rwa [hst] at hraises
  · rcases hst with hst | hst <;> rwa [hst] at hraises
  · rwa [hst] at hraises
  · rwa [hst] at hraises
  · rwa [hst] at hraises

/-! ## The fields of an error -/

/-- A device's length fits a word. -/
theorem Bus.len_lt (b : Bus) (d : Device) : b.len d < 2 ^ 32 := by
  cases d with
  | reg => rw [Bus.len_reg]; decide
  | io => rw [Bus.len_io]; decide
  | mem => exact b.cfg.ramSize.isLt
  | vid => exact b.cfg.videoSize.isLt

section
variable {s : State} {i : Instr} {r : Response} {blk : Block} (hf : Fails s i r blk)
include hf

/-- MEM_BOUNDS carries the device's length and the offset, and the address on the bus, or what an image operation
reports at the end of the bank (60_exceptions.md R182). -/
theorem Fails.memBounds_fields (hst : r.status = .memBounds) : ∃ b, s.block = .configured b ∧
    ((∃ a d, (i = .read a ∨ ∃ v, i = .write a v) ∧ (classify a).1.device = some d ∧
        r.eAddr = some a ∧ r.eOff = some (BitVec.ofNat 32 (classify a).2) ∧
        r.eLen = some (BitVec.ofNat 32 (b.len d)) ∧ r.eIdx = none) ∨
      (∃ d off, (i = devrd d off ∨ ∃ v, i = devwr d off v) ∧
        r.eAddr = none ∧ r.eOff = some off ∧ r.eLen = some (BitVec.ofNat 32 (b.len d)) ∧ r.eIdx = none) ∨
      (∃ bytes, i = .imgload (.bytes bytes) ∧
        r.eAddr = fit32 (0x00100100 + b.cfg.ramSize.toNat) ∧
        r.eOff = some b.cfg.ramSize ∧ r.eLen = some b.cfg.ramSize ∧ r.eIdx = some b.cfg.ramSize)) := by
  cases hf with
  | @read b a _ h he =>
    cases he with
    | @past d hd =>
      exact ⟨b, h, .inl ⟨a, d, .inl rfl, hd, rfl, fit32_of_lt (classify_offset_lt a), fit32_of_lt (b.len_lt d), rfl⟩⟩
    | opcode | reserved => cases hst
  | @write b a v _ h he =>
    cases he with
    | @past d hd =>
      exact ⟨b, h, .inl ⟨a, d, .inr ⟨v, rfl⟩, hd, rfl, fit32_of_lt (classify_offset_lt a), fit32_of_lt (b.len_lt d),
        rfl⟩⟩
    | opcode | reserved => cases hst
  | @ofDevrd b d off h =>
    exact ⟨b, h, .inr (.inl ⟨d, off, .inl rfl, rfl, fit32_toNat off, fit32_of_lt (b.len_lt d), rfl⟩)⟩
  | @ofDevwr b d off v h =>
    exact ⟨b, h, .inr (.inl ⟨d, off, .inr ⟨v, rfl⟩, rfl, fit32_toNat off, fit32_of_lt (b.len_lt d), rfl⟩)⟩
  | @pastBank b bytes h =>
    exact ⟨b, h, .inr (.inr ⟨bytes, rfl, rfl, fit32_toNat _, rfl, fit32_toNat _⟩)⟩
  | notConfigured | configVideo | configRam | saveFailed | loadFailed | loadNotFound | imageLength => cases hst

/-- MEM_OPCODE and MEM_RESERVED carry the address alone (60_exceptions.md R182). -/
theorem Fails.unmapped_fields (hst : r.status = .memOpcode ∨ r.status = .memReserved) :
    ((∃ a, i = .read a ∧ r.eAddr = some a) ∨ ∃ a v, i = .write a v ∧ r.eAddr = some a) ∧
      r.eOff = none ∧ r.eLen = none ∧ r.eIdx = none := by
  cases hf with
  | @read _ a _ _ he =>
    cases he with
    | opcode | reserved => exact ⟨.inl ⟨a, rfl, rfl⟩, rfl, rfl, rfl⟩
    | past => rcases hst with hst | hst <;> cases hst
  | @write _ a v _ _ he =>
    cases he with
    | opcode | reserved => exact ⟨.inr ⟨a, v, rfl, rfl⟩, rfl, rfl, rfl⟩
    | past => rcases hst with hst | hst <;> cases hst
  | notConfigured | ofDevrd | ofDevwr | configVideo | configRam | saveFailed | loadFailed | loadNotFound | imageLength
  | pastBank => rcases hst with hst | hst <;> cases hst

/-- CONFIG's two errors carry the size they refuse alone (60_exceptions.md R182). -/
theorem Fails.config_fields {ram vid : Word} (hi : i = .config ram vid) :
    (r.status = .configVideo → r.eLen = some vid ∧ r.eAddr = none ∧ r.eOff = none ∧ r.eIdx = none) ∧
    (r.status = .configRam → r.eLen = some ram ∧ r.eAddr = none ∧ r.eOff = none ∧ r.eIdx = none) := by
  cases hf with
  | configVideo =>
    cases hi
    exact ⟨fun _ => ⟨rfl, rfl, rfl, rfl⟩, nofun⟩
  | configRam =>
    cases hi
    exact ⟨nofun, fun _ => ⟨rfl, rfl, rfl, rfl⟩⟩
  | read | write | imageLength | pastBank => cases hi
  | notConfigured | ofDevrd | ofDevwr | saveFailed | loadFailed | loadNotFound => exact ⟨nofun, nofun⟩

/-- IMAGE_LENGTH carries the stream's length alone, if it fits (60_exceptions.md R182). -/
theorem Fails.imageLength_fields {bytes : List Byte} (hi : i = .imgload (.bytes bytes))
    (hst : r.status = .imageLength) :
    r.eLen = fit32 bytes.length ∧ r.eAddr = none ∧ r.eOff = none ∧ r.eIdx = none := by
  cases hf with
  | imageLength =>
    cases hi
    exact ⟨rfl, rfl, rfl, rfl⟩
  | read | write => cases hi
  | notConfigured | ofDevrd | ofDevwr | configVideo | configRam | saveFailed | loadFailed | loadNotFound | pastBank =>
    cases hst

/-- The errors with no information field (60_exceptions.md R182). -/
theorem Fails.no_fields
    (hst : r.status = .notConfigured ∨ r.status = .ioError ∨ r.status = .resourceNotFound) :
    r.eAddr = none ∧ r.eOff = none ∧ r.eLen = none ∧ r.eIdx = none := by
  cases hf with
  | notConfigured | saveFailed | loadFailed | loadNotFound => exact ⟨rfl, rfl, rfl, rfl⟩
  | read _ he | write _ he => cases he <;> rcases hst with hst | hst | hst <;> cases hst
  | ofDevrd | ofDevwr | configVideo | configRam | imageLength | pastBank =>
    rcases hst with hst | hst | hst <;> cases hst

end

/-- Settles O38: each clause is about an error, which is a listed one. -/
theorem errorsCarryExactlyTheirFields : Obligations.ErrorsCarryExactlyTheirFields := by
  unfold Obligations.ErrorsCarryExactlyTheirFields
  intro s t i r hs ht hr
  have hf : r.status ≠ .ok → Fails s i r t.block := exec_errorsListed hs i t r ht hr
  refine ⟨fun hst => ?_, fun hst => ?_, fun ram vid hi hst => ?_, fun ram vid hi hst => ?_, fun bytes hi hst => ?_,
    fun hst => ?_⟩
  · exact (hf (by rw [hst]; nofun)).memBounds_fields hst
  · exact (hf (by rcases hst with hst | hst <;> (rw [hst]; nofun))).unmapped_fields hst
  · exact ((hf (by rw [hst]; nofun)).config_fields hi).1 hst
  · exact ((hf (by rw [hst]; nofun)).config_fields hi).2 hst
  · exact (hf (by rw [hst]; nofun)).imageLength_fields hi hst
  · exact (hf (by rcases hst with hst | hst | hst <;> (rw [hst]; nofun))).no_fields hst

end Sys2Proof.Machine
end
